-- ==== Sys2Proof/Word.lean ====
section
/-! DEFINITION. The bit-vector types of the CHIP-8 core: the widths spec/00_scope.md R6 gives registers, words and fields. -/

namespace Sys2Proof

/-- An 8-bit value: a general register, a timer, a memory cell (R6, R20, R29). -/
abbrev Byte := BitVec 8

/-- A 16-bit value: an instruction word, PC, I, a stack slot (R6). -/
abbrev Word := BitVec 16

/-- A 4-bit field of an instruction word: x, y, n, and `wx` (R12, R81). -/
abbrev Nibble := BitVec 4

/-- A 12-bit field of an instruction word: nnn (R81). -/
abbrev Addr := BitVec 12

end Sys2Proof
end

