-- ==== Sys2Proof/Machine/Flags.lean ====
section
/-! DEFINITION. The values the flag register VF receives (spec/10_state.md R21, 41_alu.md R136 to R140). -/

namespace Sys2Proof.Machine

/-- A flag is written as the full 8-bit register with the value 0 or 1 (R21). -/
def flagByte (c : Bool) : Byte := if c then 1 else 0

/-- `ADD Vx, Vy`: the carry, "1 if the sum exceeds 255" (R136). -/
def carry (a b : Byte) : Bool := decide (a.toNat + b.toNat > 255)

/-- `SUB` and `SUBN`: no borrow, "1 if a >= b" for minuend a and subtrahend b (R137, R139). -/
def noBorrow (a b : Byte) : Bool := decide (a.toNat ≥ b.toNat)

/-- `SHR`: bit 0 before the shift (R138). -/
def lowBit (a : Byte) : Bool := a.getLsbD 0

/-- `SHL`: bit 7 before the shift (R140). -/
def highBit (a : Byte) : Bool := a.getLsbD 7

end Sys2Proof.Machine
end

