-- ==== Sys2Proof/Config.lean ====
section
/-! DEFINITION. What is fixed for the machine: the sizes of spec/00_scope.md R6 and the entry address of R7, and the FREE
VALUES, opaque constants without a body, which nothing in Lean can evaluate or prove a value of. (The font parameter and
the glyph table of R7 and R163 are in Sys2Proof/Machine/Font.lean.) -/

namespace Sys2Proof

/-- `MEM_SIZE = 4096` bytes (R6). -/
def Config.memSize : Nat := 4096

/-- The highest address, 0xFFF (R50): nothing above it exists (R51). -/
def Config.topAddr : Nat := 0xFFF

/-- `ENTRY = 0x200`, where PC starts after reset (R7, R38; log entry 8). -/
def Config.entry : Word := 0x0200

/-- FREE VALUE (R200; log entry 3). The 16 key levels the keyboard shows at the n-th free draw. -/
opaque Config.keyLevels : Nat → BitVec 16

/-- FREE VALUE (R209; log entry 4). The random byte at the n-th free draw. -/
opaque Config.randomByte : Nat → Byte

/-- FREE VALUE (R236, R238; log entry 2). Whether a timer tick falls before the next instruction step. -/
opaque Config.tickFalls : Nat → Bool

/-- FREE VALUE (R204; log entry 2). The key event, if any, that falls next while the core waits for a key. -/
opaque Config.keyEvent : Nat → Option Nibble

end Sys2Proof
end

