-- ==== Sys2Proof/Machine/Font.lean ====
section
/-! DEFINITION. `FONT_BASE`, the built-in glyph table, and with them what each memory byte holds after reset
(spec/00_scope.md R7, 42_index_memory.md R163, 10_state.md R38). -/

namespace Sys2Proof.Machine

/-- `FONT_BASE = 0x000`, the address of the first glyph byte (R7; log entry 8). -/
def fontBase : Nat := 0x000

/-- The sixteen glyphs for the hexadecimal digits, five bytes each, top row first (R163; log entry 8). -/
def glyphTable : List Byte :=
  [0xF0, 0x90, 0x90, 0x90, 0xF0, 0x20, 0x60, 0x20, 0x20, 0x70] ++
  [0xF0, 0x10, 0xF0, 0x80, 0xF0, 0xF0, 0x10, 0xF0, 0x10, 0xF0] ++
  [0x90, 0x90, 0xF0, 0x10, 0x10, 0xF0, 0x80, 0xF0, 0x10, 0xF0] ++
  [0xF0, 0x80, 0xF0, 0x90, 0xF0, 0xF0, 0x10, 0x20, 0x40, 0x40] ++
  [0xF0, 0x90, 0xF0, 0x90, 0xF0, 0xF0, 0x90, 0xF0, 0x10, 0xF0] ++
  [0xF0, 0x90, 0xF0, 0x90, 0x90, 0xE0, 0x90, 0xE0, 0x90, 0xE0] ++
  [0xF0, 0x80, 0x80, 0x80, 0xF0, 0xE0, 0x90, 0x90, 0x90, 0xE0] ++
  [0xF0, 0x80, 0xF0, 0x80, 0xF0, 0xF0, 0x80, 0xF0, 0x80, 0x80]

/-- What `mem[a]` holds after reset: the glyph table from `FONT_BASE`, 0x00 at every other address (R38). It is also
what an address that the memory list does not name reads as (log entry 12). -/
def resetByte (a : Nat) : Byte :=
  if fontBase ≤ a then glyphTable.getD (a - fontBase) 0x00 else 0x00

end Sys2Proof.Machine
end

