-- ==== Sys2Proof/Machine/State.lean ====
section
/-! DEFINITION. The state of the machine (spec/10_state.md), the outside events, the reasons a step can stop, and the
state right after reset (R38). Plain data throughout. -/

namespace Sys2Proof.Machine

/-- The operating states of R30 and the terminal `Halted`. Their encoding "is not architecturally visible". -/
inductive Mode where
  | running
  | waitingForKey
  | halted
deriving DecidableEq, Repr

/-- The causes of R220; `none` while no fault has occurred. -/
inductive Cause where
  | none
  | unimplementedOpcode
  | stackOverflow
  | stackUnderflow
  | memoryOutOfBounds
deriving DecidableEq, Repr

/-- What the command buffer asks of the display: `cb_kind`, 0 = CLEAR, 1 = BLIT (R33). -/
inductive CommandKind where
  | clear
  | blit
deriving DecidableEq, Repr

/-- The display command buffer (R33). -/
structure CommandBuffer where
  /-- `cb_valid`: 1 only within a step, 0 between steps. -/
  valid : Bool
  /-- `cb_kind`. -/
  kind : CommandKind
  /-- `cb_x`. -/
  x : Byte
  /-- `cb_y`. -/
  y : Byte
  /-- `cb_n`. -/
  n : Nibble
  /-- `cb_row[0]` to `cb_row[14]`. -/
  row : Vector Byte 15
deriving DecidableEq, Repr

/-- The atomic steps of R234, each as something that can fall next. -/
inductive Event where
  /-- An instruction step (R118). -/
  | instr
  /-- A tick of the Timer Clock (R236). -/
  | tick
  /-- A key-press event carrying a key value (R204). -/
  | key (k : Nibble)
  /-- The host asserts reset (R260). -/
  | reset
  /-- The host writes a byte through the load port (R263). -/
  | load (a : Addr) (d : Byte)
  /-- The host sets the run input (R265). -/
  | run (b : Bool)
deriving DecidableEq, Repr

/-- The state: all that 10_state.md gives the machine, the display beside it (R35), and the outside world's inputs. -/
structure State where
  /-- `V[0]` to `V[15]` (R20); `V[15]` is the flag register VF (R21). -/
  v : Vector Byte 16
  /-- The index register I (R24). -/
  i : Word
  /-- The program counter PC (R22). -/
  pc : Word
  /-- The stack pointer SP, 0 to 16 (R26). -/
  sp : Fin 17
  /-- `stack[0]` to `stack[15]` (R25). -/
  stack : Vector Word 16
  /-- The delay timer DT (R27). -/
  dt : Byte
  /-- The sound timer ST (R28). -/
  st : Byte
  /-- The memory (R29): the cells that differ from their reset byte, addresses rising (log entry 12). -/
  mem : List Host.Cell
  /-- The operating state (R30). -/
  mode : Mode
  /-- The wait register `wx` (R31). -/
  wx : Nibble
  /-- `fault_kind` (R32). -/
  faultKind : Cause
  /-- `fault_word` (R32). -/
  faultWord : Word
  /-- `fault_addr` (R32). -/
  faultAddr : Word
  /-- The display command buffer (R33). -/
  cb : CommandBuffer
  /-- The display buffer (R35): row r of 32, whose bit c is the pixel `fb[r][c]`. -/
  fb : Vector (BitVec 64) 32
  /-- The host's input `run` (R36, R265). -/
  run : Bool
  /-- The model's own: the steps the outside world has in store, oldest first (R234; log entry 1). -/
  outside : List Event
  /-- The model's own: `key_state` values for coming samples, before free values are taken (R200; log entry 3). -/
  keyIn : List (BitVec 16)
  /-- The model's own: `rnd` values for coming samples, before free values are taken (R209; log entry 4). -/
  rndIn : List Byte
  /-- The model's own: the index of the next free value (log entry 2). -/
  draws : Nat
deriving DecidableEq, Repr

/-- The machine stops. The faults of CORE itself (R220) are NO such stop: fault entry is a next state (R226). -/
inductive Fault where
  /-- An instruction step is asked for in `Halted`, where none is enabled (R118, R227): raised by `step` alone. Safe:
  the machine of the spec has no instruction step there either (93_implementation_defined.md M10, `stuck`). -/
  | halted (cause : Cause)
deriving DecidableEq, Repr

/-- No meaning. -/
inductive Refusal where
  /-- An instruction without a meaning: raised by `exec`'s arms of that form only. Safe: nothing is claimed of it. -/
  | notModelled (mnemonic : String)
  /-- The host writes through the load port while `run = 1`, which the host is assumed not to do (R263, R272): raised by
  `step` alone. Safe: "`refuse`: no step exists" (93_implementation_defined.md M24). -/
  | loadWhileRunning
deriving DecidableEq, Repr

/-- The command buffer after reset: every field 0 (R38). -/
def CommandBuffer.reset : CommandBuffer :=
  { valid := false, kind := .clear, x := 0, y := 0, n := 0, row := Vector.replicate 15 0 }

/-- The state right after reset (R38). The last five fields are inputs and the model's own (log entries 1 to 5). -/
def State.reset : State :=
  { v := Vector.replicate 16 0
    i := 0
    pc := Config.entry
    sp := 0
    stack := Vector.replicate 16 0
    dt := 0
    st := 0
    mem := []
    mode := .running
    wx := 0
    faultKind := .none
    faultWord := 0
    faultAddr := 0
    cb := .reset
    fb := Vector.replicate 32 0
    run := true
    outside := []
    keyIn := []
    rndIn := []
    draws := 0 }

end Sys2Proof.Machine
end

