-- ==== Sys2Proof/Machine/Ops.lean ====
section
/-! DEFINITION. The named operations over registers, PC, memory, stack and display, fault entry, and the steps of the other
agents (spec/10_state.md, 20_memory.md, 43_display.md, 60_exceptions.md, 70_reset_and_hazards.md). -/

namespace Sys2Proof.Machine

/-! ## Registers (R20, R21) -/

/-- `V[x]`. -/
def State.getV (s : State) (x : Nibble) : Byte := s.v[x.toNat]'x.isLt

/-- `V[x] <- b`. -/
def State.setV (s : State) (x : Nibble) (b : Byte) : State := { s with v := s.v.set x.toNat b x.isLt }

/-- The index of VF, the flag register (R21). -/
def flagReg : Nibble := 0xF

/-- The flag into VF first, the result into Vx second, so that with x = 0xF the result remains (R142). -/
def State.setFlagThenV (s : State) (flag : Bool) (x : Nibble) (b : Byte) : State :=
  (s.setV flagReg (flagByte flag)).setV x b

/-! ## The program counter (R22, R23) -/

/-- `npc = PC + 2`, the address of the next instruction in line (R23). -/
def State.npc (s : State) : Word := s.pc + 2

/-- `pc <- npc`. -/
def State.advance (s : State) : State := { s with pc := s.npc }

/-- `pc <- t`. -/
def State.jumpTo (s : State) (t : Word) : State := { s with pc := t }

/-- A skip: `if cond then pc <- npc + 2 else pc <- npc` (R120). -/
def State.skipIf (s : State) (cond : Bool) : State := { s with pc := if cond then s.npc + 2 else s.npc }

/-! ## Memory (R29, R50), a list of cells in canonical form (log entry 12) -/

/-- The byte at an address: that of its cell, or its reset byte where no cell names it. -/
def Memory.read : List Host.Cell → Nat → Byte
  | [], a => resetByte a
  | (k, b) :: rest, a => if k = a then b else Memory.read rest a

/-- The list without the cells of an address. -/
def Memory.erase (m : List Host.Cell) (a : Nat) : List Host.Cell := m.filter fun c => decide (c.1 ≠ a)

/-- A cell put before the first higher address. -/
def Memory.insert : List Host.Cell → Nat → Byte → List Host.Cell
  | [], a, b => [(a, b)]
  | (k, v) :: rest, a, b => if a < k then (a, b) :: (k, v) :: rest else (k, v) :: Memory.insert rest a b

/-- `mem[a] <- b`. Writing the reset byte removes the cell. -/
def Memory.write (m : List Host.Cell) (a : Nat) (b : Byte) : List Host.Cell :=
  if b = resetByte a then Memory.erase m a else Memory.insert (Memory.erase m a) a b

/-- The bytes written at ascending addresses from `a` (R57). -/
def Memory.writeBytes : List Host.Cell → Nat → List Byte → List Host.Cell
  | m, _, [] => m
  | m, a, b :: bs => Memory.writeBytes (Memory.write m a b) (a + 1) bs

/-- Every cell lies in the address space and differs from its reset byte. -/
def Memory.cellsOk (m : List Host.Cell) : Bool :=
  m.all fun c => decide (c.1 < Config.memSize) && decide (c.2 ≠ resetByte c.1)

/-- Addresses strictly rise. -/
def Memory.rising : List Host.Cell → Bool
  | [] => true
  | c :: rest => rest.all (fun d => decide (c.1 < d.1)) && Memory.rising rest

/-- The canonical form of the memory list. -/
def Memory.wf (m : List Host.Cell) : Bool := Memory.cellsOk m && Memory.rising m

/-- `mem[a]`. -/
def State.readByte (s : State) (a : Nat) : Byte := Memory.read s.mem a

/-- Stores of bytes at ascending addresses from I, as `LD B` and `LD [I]` make them (R57, R59). -/
def State.storeAtI (s : State) (bs : List Byte) : State := { s with mem := Memory.writeBytes s.mem s.i.toNat bs }

/-- "if `I + last > 0xFFF` the instruction raises `MemoryOutOfBounds`": the check of all its addresses at once (R56). -/
def State.inBounds (s : State) (last : Nat) : Bool := decide (s.i.toNat + last ≤ Config.topAddr)

/-! ## Fetch (R53, R54) -/

/-- The word at PC, high byte first, or nothing where `PC > 0xFFE`. The fetch never wraps. -/
def State.fetch (s : State) : Option Word :=
  if s.pc.toNat > 0xFFE then none
  else some (s.readByte s.pc.toNat ++ s.readByte (s.pc.toNat + 1))

/-! ## The stack (R25, R26) -/

/-- Put a return address in the slot SP and add 1 to SP, where a slot is left (R111). -/
def State.push (s : State) (w : Word) : Option State :=
  if h : s.sp.val < 16 then
    some { s with stack := s.stack.set s.sp.val w h, sp := ⟨s.sp.val + 1, by omega⟩ }
  else none

/-- The slot under SP, and the state with 1 taken from SP, where there is one; the slot keeps its value (R25, R112). -/
def State.pop (s : State) : Option (Word × State) :=
  if h : 0 < s.sp.val then
    some (s.stack[s.sp.val - 1]'(by omega), { s with sp := ⟨s.sp.val - 1, by omega⟩ })
  else none

/-! ## Taking a fault (R226) -/

/-- Fault entry: `mode <- Halted`, the record written, NOTHING else changed; PC stays at the failing instruction. -/
def State.raise (s : State) (c : Cause) (word : Word) : State :=
  { s with mode := .halted, faultKind := c, faultWord := word, faultAddr := s.pc }

/-- The number of a cause, the value of the output `fault_kind` (R220). -/
def Cause.code : Cause → BitVec 3
  | .none => 0
  | .unimplementedOpcode => 1
  | .stackOverflow => 2
  | .stackUnderflow => 3
  | .memoryOutOfBounds => 4

/-! ## The reference display (R184 to R187) -/

/-- `fb[r][c]`. -/
def pixel (fb : Vector (BitVec 64) 32) (r : Fin 32) (c : Fin 64) : Bool := fb[r.val].getLsbD c.val

/-- The pixels of one display row that a sprite byte touches: bit 7 - c of the byte at column (cx + c) mod 64 (R186). -/
def spriteMask (cx : Byte) (b : Byte) : BitVec 64 :=
  (List.range 8).foldl
    (fun m c => if b.getLsbD (7 - c) then m ||| BitVec.twoPow 64 ((cx.toNat + c) % 64) else m) 0

/-- BLIT: the sprite's rows XORed in, row r at display row (cy + r) mod 32 (R186). -/
def blitRows (fb : Vector (BitVec 64) 32) (cx : Byte) (cy : Nat) : List Byte → Vector (BitVec 64) 32
  | [] => fb
  | b :: bs =>
    blitRows (fb.set (cy % 32) (fb[cy % 32]'(by omega) ^^^ spriteMask cx b) (by omega)) cx (cy + 1) bs

/-- The collision result of a BLIT: a sprite bit 1 over a pixel that was 1 before the command (R187). -/
def collides (fb : Vector (BitVec 64) 32) (cx : Byte) (cy : Nat) : List Byte → Bool
  | [] => false
  | b :: bs => decide (fb[cy % 32]'(by omega) &&& spriteMask cx b ≠ 0) || collides fb cx (cy + 1) bs

/-! ## The command buffer and the two commands (R33, R182, R183) -/

/-- The core fills the buffer with a CLEAR request (R182). -/
def State.requestClear (s : State) : State := { s with cb := { s.cb with valid := true, kind := .clear } }

/-- The core fills the buffer with a BLIT request: `cb_row[r] = mem[I + r]` for r below n, the other rows as before (R33). -/
def State.requestBlit (s : State) (cx cy : Byte) (n : Nibble) : State :=
  { s with cb :=
    { valid := true, kind := .blit, x := cx, y := cy, n := n,
      row := Vector.ofFn fun r => if r.val < n.toNat then s.readByte (s.i.toNat + r.val) else s.cb.row[r.val] } }

/-- The sprite rows of the request in the buffer. -/
def CommandBuffer.rows (cb : CommandBuffer) : List Byte := cb.row.toList.take cb.n.toNat

/-- The buffer is handed over: the display carries out its request and the buffer is no longer valid (R33, R185, R186). -/
def State.displayActs (s : State) : State :=
  { s with
    fb := match s.cb.kind with
      | .clear => Vector.replicate 32 0
      | .blit => blitRows s.fb s.cb.x s.cb.y.toNat s.cb.rows
    cb := { s.cb with valid := false } }

/-- The display's answer to the BLIT request in the buffer, `disp_collision` (R183, R187). -/
def State.displayAnswer (s : State) : Bool := collides s.fb s.cb.x s.cb.y.toNat s.cb.rows

/-- `DisplayClear()` (R182). -/
def State.displayClear (s : State) : State := s.requestClear.displayActs

/-- `DisplayBlit(cx, cy, n, rows)` with the rows read at I (R181, R183): the state after, and the collision bit. -/
def State.displayBlit (s : State) (cx cy : Byte) (n : Nibble) : State × Bool :=
  let q := s.requestBlit cx cy n
  (q.displayActs, q.displayAnswer)

/-! ## The Timer Clock (R236) and the outputs (R28, R36) -/

/-- A timer at 0 stays at 0 (R27, R28). -/
def countDown (t : Byte) : Byte := if t = 0 then 0 else t - 1

/-- The tick step: both timers, nothing else (R236). -/
def State.tick (s : State) : State := { s with dt := countDown s.dt, st := countDown s.st }

/-- The output `sound_active` (R28, R239). -/
def State.soundActive (s : State) : Bool := decide (s.st.toNat > 0)

/-- The output `halted` (R36). -/
def State.isHalted (s : State) : Bool := s.mode == .halted

/-- The output `waiting` (R36, R246). -/
def State.isWaiting (s : State) : Bool := s.mode == .waitingForKey

/-! ## The key event (R204) -/

/-- `V[wx] <- zext_8(k)`, `mode <- Running`, in `WaitingForKey` alone; in the other modes the event is dropped (R204). -/
def State.keyEvent (s : State) (k : Nibble) : State :=
  match s.mode with
  | .waitingForKey => { s.setV s.wx (k.zeroExtend 8) with mode := .running }
  | .running => s
  | .halted => s

/-! ## The host's actions (R260, R263, R265) -/

/-- Reset: every piece of state of 10_state.md at its reset value; the inputs and the outside world's lists are none of it
(R260, R37; log entry 15). -/
def State.hostReset (s : State) : State :=
  { State.reset with run := s.run, outside := s.outside, keyIn := s.keyIn, rndIn := s.rndIn, draws := s.draws }

/-- A write through the load port, `mem[a] <- d` (R263). -/
def State.hostLoad (s : State) (a : Addr) (d : Byte) : State := { s with mem := Memory.write s.mem a.toNat d }

/-- The host sets `run`, which changes no other state (R265). -/
def State.hostRun (s : State) (b : Bool) : State := { s with run := b }

end Sys2Proof.Machine
end

