-- ==== Sys2Proof/Machine/Operands.lean ====
section
/-! DEFINITION. The operand forms: addresses and digits computed from fields and registers, and the sampled inputs of the
keyboard and the random source (spec/30_encoding.md R83, 44_keys_timers_random.md R200, R201, R209). -/

namespace Sys2Proof.Machine

/-- A 12-bit address "zero-extended to 16 bits when written to PC or I" (R83). -/
def addrWord (nnn : Addr) : Word := nnn.zeroExtend 16

/-- `nnn + V[0]`, not masked (R113). -/
def offsetTarget (nnn : Addr) (v0 : Byte) : Word := nnn.zeroExtend 16 + v0.zeroExtend 16

/-- `(I + Vx) mod 4096` (R161). -/
def indexSum (i : Word) (b : Byte) : Word := BitVec.ofNat 16 ((i.toNat + b.toNat) % 4096)

/-- `FONT_BASE + 5 * (Vx & 0x0F)`, the address of a digit's glyph (R162). -/
def glyphAddr (b : Byte) : Word := BitVec.ofNat 16 (fontBase + 5 * (b &&& 0x0F).toNat)

/-- `I + x + 1`, the index after a block transfer, not masked (R165, R166). -/
def indexAfterBlock (i : Word) (x : Nibble) : Word := i + x.zeroExtend 16 + 1

/-- The three decimal digits of a byte, hundreds first (R164). -/
def decimalDigits (b : Byte) : List Byte :=
  [BitVec.ofNat 8 (b.toNat / 100), BitVec.ofNat 8 (b.toNat / 10 % 10), BitVec.ofNat 8 (b.toNat % 10)]

/-- The values of V0 to Vx, in that order (R165). -/
def State.regsUpTo (s : State) (x : Nibble) : List Byte := s.v.toList.take (x.toNat + 1)

/-- V0 to Vx loaded from the bytes at I, I + 1, up to I + x (R166). -/
def State.loadRegsAtI (s : State) (x : Nibble) : State :=
  { s with v := Vector.ofFn fun r => if r.val ≤ x.toNat then s.readByte (s.i.toNat + r.val) else s.v[r.val] }

/-- `pressed = (V[x] <= 0x0F) and KeyDown(V[x][3:0])`, with the key levels sampled by this step (R200, R201). -/
def keyPressed (levels : BitVec 16) (b : Byte) : Bool := decide (b.toNat ≤ 0x0F) && levels.getLsbD b.toNat

/-- The value of `key_state` that a step samples: the next given one, else a free value (R200; log entry 3). -/
def State.keySample (s : State) : BitVec 16 :=
  match s.keyIn with
  | levels :: _ => levels
  | [] => Config.keyLevels s.draws

/-- The state after `key_state` has been sampled: the given value, or the free value's index, is used up. -/
def State.afterKeySample (s : State) : State :=
  match s.keyIn with
  | _ :: rest => { s with keyIn := rest }
  | [] => { s with draws := s.draws + 1 }

/-- The value of `rnd` that a step samples: the next given one, else a free value (R209; log entry 4). -/
def State.rndSample (s : State) : Byte :=
  match s.rndIn with
  | r :: _ => r
  | [] => Config.randomByte s.draws

/-- The state after `rnd` has been sampled: the given value, or the free value's index, is used up. -/
def State.afterRndSample (s : State) : State :=
  match s.rndIn with
  | _ :: rest => { s with rndIn := rest }
  | [] => { s with draws := s.draws + 1 }

end Sys2Proof.Machine
end

