-- ==== Sys2Proof/Machine/Alu.lean ====
section
/-! DEFINITION. The meanings of the ALU instructions (spec/41_alu.md R130 to R140). Byte arithmetic is modulo 256 (R141). -/

namespace Sys2Proof.Machine

/-- `LD Vx, byte` (R130). -/
def execLdByte (x : Nibble) (kk : Byte) (s : State) : Host.Outcome State Fault Refusal :=
  .next (s.setV x kk).advance

/-- `ADD Vx, byte`, no flag (R131). -/
def execAddByte (x : Nibble) (kk : Byte) (s : State) : Host.Outcome State Fault Refusal :=
  .next (s.setV x (s.getV x + kk)).advance

/-- `LD Vx, Vy` (R132). -/
def execLdReg (x y : Nibble) (s : State) : Host.Outcome State Fault Refusal :=
  .next (s.setV x (s.getV y)).advance

/-- `OR Vx, Vy`, no flag (R133). -/
def execOrReg (x y : Nibble) (s : State) : Host.Outcome State Fault Refusal :=
  .next (s.setV x (s.getV x ||| s.getV y)).advance

/-- `AND Vx, Vy`, no flag (R134). -/
def execAndReg (x y : Nibble) (s : State) : Host.Outcome State Fault Refusal :=
  .next (s.setV x (s.getV x &&& s.getV y)).advance

/-- `XOR Vx, Vy`, no flag (R135). -/
def execXorReg (x y : Nibble) (s : State) : Host.Outcome State Fault Refusal :=
  .next (s.setV x (s.getV x ^^^ s.getV y)).advance

/-- `ADD Vx, Vy`, VF the carry (R136). -/
def execAddReg (x y : Nibble) (s : State) : Host.Outcome State Fault Refusal :=
  .next (s.setFlagThenV (carry (s.getV x) (s.getV y)) x (s.getV x + s.getV y)).advance

/-- `SUB Vx, Vy`, VF no borrow (R137). -/
def execSubReg (x y : Nibble) (s : State) : Host.Outcome State Fault Refusal :=
  .next (s.setFlagThenV (noBorrow (s.getV x) (s.getV y)) x (s.getV x - s.getV y)).advance

/-- `SHR Vx`, VF the bit shifted out; y is no operand (R138). -/
def execShr (x : Nibble) (s : State) : Host.Outcome State Fault Refusal :=
  .next (s.setFlagThenV (lowBit (s.getV x)) x (s.getV x >>> 1)).advance

/-- `SUBN Vx, Vy`, VF no borrow (R139). -/
def execSubnReg (x y : Nibble) (s : State) : Host.Outcome State Fault Refusal :=
  .next (s.setFlagThenV (noBorrow (s.getV y) (s.getV x)) x (s.getV y - s.getV x)).advance

/-- `SHL Vx`, VF the bit shifted out; y is no operand (R140). -/
def execShl (x : Nibble) (s : State) : Host.Outcome State Fault Refusal :=
  .next (s.setFlagThenV (highBit (s.getV x)) x (s.getV x <<< 1)).advance

end Sys2Proof.Machine
end

