-- ==== Sys2Proof/Syntax.lean ====
section
/-! DEFINITION. The 34 instructions of spec/opcode_table.json as one inductive type, in the table's order (30_encoding.md R86). -/

namespace Sys2Proof

/-- One constructor per row of the opcode map (R86), with the fields its format gives it (R82).
The bits R89 calls ignored are fields too (named `u`), so that an instruction keeps every bit of its word:
`RET` faults record the word as fetched (R223). No meaning reads a field named `u` but to rebuild that word. -/
inductive Instr where
  /-- `CLS`, 0x0uE0 (R180). -/
  | cls (u : Nibble)
  /-- `RET`, 0x0uEE (R112). -/
  | ret (u : Nibble)
  /-- `JP nnn`, 0x1nnn (R110). -/
  | jp (nnn : Addr)
  /-- `CALL nnn`, 0x2nnn (R111). -/
  | call (nnn : Addr)
  /-- `SE Vx, byte`, 0x3xkk (R114). -/
  | seByte (x : Nibble) (kk : Byte)
  /-- `SNE Vx, byte`, 0x4xkk (R115). -/
  | sneByte (x : Nibble) (kk : Byte)
  /-- `SE Vx, Vy`, 0x5xyu (R116). -/
  | seReg (x y u : Nibble)
  /-- `LD Vx, byte`, 0x6xkk (R130). -/
  | ldByte (x : Nibble) (kk : Byte)
  /-- `ADD Vx, byte`, 0x7xkk (R131). -/
  | addByte (x : Nibble) (kk : Byte)
  /-- `LD Vx, Vy`, 0x8xy0 (R132). -/
  | ldReg (x y : Nibble)
  /-- `OR Vx, Vy`, 0x8xy1 (R133). -/
  | orReg (x y : Nibble)
  /-- `AND Vx, Vy`, 0x8xy2 (R134). -/
  | andReg (x y : Nibble)
  /-- `XOR Vx, Vy`, 0x8xy3 (R135). -/
  | xorReg (x y : Nibble)
  /-- `ADD Vx, Vy`, 0x8xy4 (R136). -/
  | addReg (x y : Nibble)
  /-- `SUB Vx, Vy`, 0x8xy5 (R137). -/
  | subReg (x y : Nibble)
  /-- `SHR Vx`, 0x8xu6 (R138). -/
  | shr (x u : Nibble)
  /-- `SUBN Vx, Vy`, 0x8xy7 (R139). -/
  | subnReg (x y : Nibble)
  /-- `SHL Vx`, 0x8xuE (R140). -/
  | shl (x u : Nibble)
  /-- `SNE Vx, Vy`, 0x9xyu (R117). -/
  | sneReg (x y u : Nibble)
  /-- `LD I, nnn`, 0xAnnn (R160). -/
  | ldI (nnn : Addr)
  /-- `JP V0, nnn`, 0xBnnn (R113). -/
  | jpV0 (nnn : Addr)
  /-- `RND Vx, byte`, 0xCxkk (R208). -/
  | rnd (x : Nibble) (kk : Byte)
  /-- `DRW Vx, Vy, n`, 0xDxyn (R181). -/
  | drw (x y n : Nibble)
  /-- `SKP Vx`, 0xEx9E (R201). -/
  | skp (x : Nibble)
  /-- `SKNP Vx`, 0xExA1 (R202). -/
  | sknp (x : Nibble)
  /-- `LD Vx, DT`, 0xFx07 (R205). -/
  | ldVxDt (x : Nibble)
  /-- `LD Vx, K`, 0xFx0A (R203). -/
  | ldVxK (x : Nibble)
  /-- `LD DT, Vx`, 0xFx15 (R206). -/
  | ldDtVx (x : Nibble)
  /-- `LD ST, Vx`, 0xFx18 (R207). -/
  | ldStVx (x : Nibble)
  /-- `ADD I, Vx`, 0xFx1E (R161). -/
  | addI (x : Nibble)
  /-- `LD F, Vx`, 0xFx29 (R162). -/
  | ldF (x : Nibble)
  /-- `LD B, Vx`, 0xFx33 (R164). -/
  | ldB (x : Nibble)
  /-- `LD [I], Vx`, 0xFx55 (R165). -/
  | storeRegs (x : Nibble)
  /-- `LD Vx, [I]`, 0xFx65 (R166). -/
  | loadRegs (x : Nibble)
deriving DecidableEq, Repr

end Sys2Proof
end

