-- ==== Sys2Proof/WellFormed.lean ====
section
/-! DEFINITION. Which instructions an assembler writes: those whose ignored bits are 0 (30_encoding.md R89, R92). -/

namespace Sys2Proof

/-- "The canonical encoding, the one an assembler emits, has all ignored bits 0" (R89). The field widths of R81 are
already in the types, so the ignored bits are all there is to check. This is NO condition of execution: a word that
differs from a canonical one in ignored bits only executes as the same instruction (R89, log entry 9). -/
def Instr.wellFormed : Instr → Bool
  | .cls u => u == 0
  | .ret u => u == 0
  | .jp _ => true
  | .call _ => true
  | .seByte _ _ => true
  | .sneByte _ _ => true
  | .seReg _ _ u => u == 0
  | .ldByte _ _ => true
  | .addByte _ _ => true
  | .ldReg _ _ => true
  | .orReg _ _ => true
  | .andReg _ _ => true
  | .xorReg _ _ => true
  | .addReg _ _ => true
  | .subReg _ _ => true
  | .shr _ u => u == 0
  | .subnReg _ _ => true
  | .shl _ u => u == 0
  | .sneReg _ _ u => u == 0
  | .ldI _ => true
  | .jpV0 _ => true
  | .rnd _ _ => true
  | .drw _ _ _ => true
  | .skp _ => true
  | .sknp _ => true
  | .ldVxDt _ => true
  | .ldVxK _ => true
  | .ldDtVx _ => true
  | .ldStVx _ => true
  | .addI _ => true
  | .ldF _ => true
  | .ldB _ => true
  | .storeRegs _ => true
  | .loadRegs _ => true

end Sys2Proof
end

