-- ==== Sys2Proof/Decode.lean ====
section
/-! DEFINITION. Fields of a word, the decoder, the encoder and the opcode map (spec/30_encoding.md R80 to R91). -/

namespace Sys2Proof

/-! ## Fields (R81) -/

/-- `word[15:12]`, the instruction family (R81). -/
def Field.family (w : Word) : Nibble := w.extractLsb' 12 4
/-- `x = (word & 0x0F00) >> 8` (R81). -/
def Field.x (w : Word) : Nibble := w.extractLsb' 8 4
/-- `y = (word & 0x00F0) >> 4` (R81). -/
def Field.y (w : Word) : Nibble := w.extractLsb' 4 4
/-- `n = word & 0x000F` (R81). -/
def Field.n (w : Word) : Nibble := w.extractLsb' 0 4
/-- `kk = word & 0x00FF` (R81). -/
def Field.kk (w : Word) : Byte := w.extractLsb' 0 8
/-- `nnn = word & 0x0FFF` (R81). -/
def Field.nnn (w : Word) : Addr := w.extractLsb' 0 12

/-! ## The decoder (R84, R86, R90) -/

/-- Why a decoder answers no instruction. Decoding itself never faults: "the decoder returns the outcome and the step
acts on it" (R90). -/
inductive DecodeError where
  /-- The word matches no row of the opcode map (R90). Safe: the step raises the fault the spec names. -/
  | unimplementedOpcode (word : Word)
  /-- Fewer than two bytes were given; no fetch of the core does so (R80). Safe: nothing is decoded. -/
  | truncated
deriving DecidableEq, Repr

/-- Secondary dispatch of family 0x0 on kk (R84). -/
def decode0 (w : Word) : Option Instr :=
  match Field.kk w with
  | 0xE0#8 => some (.cls (Field.x w))
  | 0xEE#8 => some (.ret (Field.x w))
  | _ => none

/-- Secondary dispatch of family 0x8 on n (R84). -/
def decode8 (w : Word) : Option Instr :=
  let x := Field.x w
  let y := Field.y w
  match Field.n w with
  | 0x0#4 => some (.ldReg x y)
  | 0x1#4 => some (.orReg x y)
  | 0x2#4 => some (.andReg x y)
  | 0x3#4 => some (.xorReg x y)
  | 0x4#4 => some (.addReg x y)
  | 0x5#4 => some (.subReg x y)
  | 0x6#4 => some (.shr x y)
  | 0x7#4 => some (.subnReg x y)
  | 0xE#4 => some (.shl x y)
  | _ => none

/-- Secondary dispatch of family 0xE on kk (R84). -/
def decodeE (w : Word) : Option Instr :=
  match Field.kk w with
  | 0x9E#8 => some (.skp (Field.x w))
  | 0xA1#8 => some (.sknp (Field.x w))
  | _ => none

/-- Secondary dispatch of family 0xF on kk (R84). -/
def decodeF (w : Word) : Option Instr :=
  let x := Field.x w
  match Field.kk w with
  | 0x07#8 => some (.ldVxDt x)
  | 0x0A#8 => some (.ldVxK x)
  | 0x15#8 => some (.ldDtVx x)
  | 0x18#8 => some (.ldStVx x)
  | 0x1E#8 => some (.addI x)
  | 0x29#8 => some (.ldF x)
  | 0x33#8 => some (.ldB x)
  | 0x55#8 => some (.storeRegs x)
  | 0x65#8 => some (.loadRegs x)
  | _ => none

/-- Dispatch on the top nibble (R84); `none` is a word no row matches (R90). -/
def decodeOpt (w : Word) : Option Instr :=
  match Field.family w with
  | 0x0#4 => decode0 w
  | 0x1#4 => some (.jp (Field.nnn w))
  | 0x2#4 => some (.call (Field.nnn w))
  | 0x3#4 => some (.seByte (Field.x w) (Field.kk w))
  | 0x4#4 => some (.sneByte (Field.x w) (Field.kk w))
  | 0x5#4 => some (.seReg (Field.x w) (Field.y w) (Field.n w))
  | 0x6#4 => some (.ldByte (Field.x w) (Field.kk w))
  | 0x7#4 => some (.addByte (Field.x w) (Field.kk w))
  | 0x8#4 => decode8 w
  | 0x9#4 => some (.sneReg (Field.x w) (Field.y w) (Field.n w))
  | 0xA#4 => some (.ldI (Field.nnn w))
  | 0xB#4 => some (.jpV0 (Field.nnn w))
  | 0xC#4 => some (.rnd (Field.x w) (Field.kk w))
  | 0xD#4 => some (.drw (Field.x w) (Field.y w) (Field.n w))
  | 0xE#4 => decodeE w
  | 0xF#4 => decodeF w
  | _ => none

/-- The decoder: a pure function of the word, with a typed outcome for the words of R90. -/
def decode (w : Word) : Except DecodeError Instr :=
  match decodeOpt w with
  | some i => .ok i
  | none => .error (.unimplementedOpcode w)

/-- The word of two consecutive bytes, the byte at the lower address first and high (R54). -/
def wordOfBytes (hi lo : Byte) : Word := hi ++ lo

/-- The decoder on a list of bytes, lowest address first: the instruction and the bytes after it (R80). -/
def decodeBytes : List Byte → Except DecodeError (Instr × List Byte)
  | hi :: lo :: rest =>
    match decode (wordOfBytes hi lo) with
    | .ok i => .ok (i, rest)
    | .error e => .error e
  | _ => .error .truncated

/-! ## The encoder (R82, R86) -/

/-- Format A: `ffff nnnn nnnn nnnn` (R82). -/
def formatA (f : Nibble) (nnn : Addr) : Word := f ++ nnn

/-- Formats XK, X and Z: `ffff xxxx kkkk kkkk`, kk an immediate or the secondary key (R82). -/
def formatXK (f x : Nibble) (kk : Byte) : Word := f ++ x ++ kk

/-- Formats XY and XYN: `ffff xxxx yyyy ssss`, the low nibble an immediate, the secondary key or unused (R82). -/
def formatXY (f x y n : Nibble) : Word := f ++ x ++ y ++ n

/-- The word of an instruction, bit for bit as R82 lays out its format. Ignored bits are the ones the instruction
carries, so that `encode` gives back the word an instruction was decoded from. -/
def encode : Instr → Word
  | .cls u => formatXK 0x0 u 0xE0
  | .ret u => formatXK 0x0 u 0xEE
  | .jp nnn => formatA 0x1 nnn
  | .call nnn => formatA 0x2 nnn
  | .seByte x kk => formatXK 0x3 x kk
  | .sneByte x kk => formatXK 0x4 x kk
  | .seReg x y u => formatXY 0x5 x y u
  | .ldByte x kk => formatXK 0x6 x kk
  | .addByte x kk => formatXK 0x7 x kk
  | .ldReg x y => formatXY 0x8 x y 0x0
  | .orReg x y => formatXY 0x8 x y 0x1
  | .andReg x y => formatXY 0x8 x y 0x2
  | .xorReg x y => formatXY 0x8 x y 0x3
  | .addReg x y => formatXY 0x8 x y 0x4
  | .subReg x y => formatXY 0x8 x y 0x5
  | .shr x u => formatXY 0x8 x u 0x6
  | .subnReg x y => formatXY 0x8 x y 0x7
  | .shl x u => formatXY 0x8 x u 0xE
  | .sneReg x y u => formatXY 0x9 x y u
  | .ldI nnn => formatA 0xA nnn
  | .jpV0 nnn => formatA 0xB nnn
  | .rnd x kk => formatXK 0xC x kk
  | .drw x y n => formatXY 0xD x y n
  | .skp x => formatXK 0xE x 0x9E
  | .sknp x => formatXK 0xE x 0xA1
  | .ldVxDt x => formatXK 0xF x 0x07
  | .ldVxK x => formatXK 0xF x 0x0A
  | .ldDtVx x => formatXK 0xF x 0x15
  | .ldStVx x => formatXK 0xF x 0x18
  | .addI x => formatXK 0xF x 0x1E
  | .ldF x => formatXK 0xF x 0x29
  | .ldB x => formatXK 0xF x 0x33
  | .storeRegs x => formatXK 0xF x 0x55
  | .loadRegs x => formatXK 0xF x 0x65

/-- The two bytes of an instruction as memory holds them, lowest address first (R54). -/
def encodeBytes (i : Instr) : List Byte := [(encode i).extractLsb' 8 8, (encode i).extractLsb' 0 8]

/-! ## The opcode map (R86), the manual's table beside the dispatch above -/

/-- A row of R86: a word `w` selects it when `w & mask == value` (the spec's `match`). `build` reads its fields. -/
structure OpcodeRow where
  mask : Word
  value : Word
  build : Word → Instr

/-- `w & mask == match` (R86). -/
def OpcodeRow.selects (r : OpcodeRow) (w : Word) : Bool := w &&& r.mask == r.value

/-- The 34 rows of R86, in its order, with its match and mask values. -/
def opcodeMap : List OpcodeRow :=
  [ ⟨0xF0FF, 0x00E0, fun w => .cls (Field.x w)⟩,
    ⟨0xF0FF, 0x00EE, fun w => .ret (Field.x w)⟩,
    ⟨0xF000, 0x1000, fun w => .jp (Field.nnn w)⟩,
    ⟨0xF000, 0x2000, fun w => .call (Field.nnn w)⟩,
    ⟨0xF000, 0x3000, fun w => .seByte (Field.x w) (Field.kk w)⟩,
    ⟨0xF000, 0x4000, fun w => .sneByte (Field.x w) (Field.kk w)⟩,
    ⟨0xF000, 0x5000, fun w => .seReg (Field.x w) (Field.y w) (Field.n w)⟩,
    ⟨0xF000, 0x6000, fun w => .ldByte (Field.x w) (Field.kk w)⟩,
    ⟨0xF000, 0x7000, fun w => .addByte (Field.x w) (Field.kk w)⟩ ] ++
  [ ⟨0xF00F, 0x8000, fun w => .ldReg (Field.x w) (Field.y w)⟩,
    ⟨0xF00F, 0x8001, fun w => .orReg (Field.x w) (Field.y w)⟩,
    ⟨0xF00F, 0x8002, fun w => .andReg (Field.x w) (Field.y w)⟩,
    ⟨0xF00F, 0x8003, fun w => .xorReg (Field.x w) (Field.y w)⟩,
    ⟨0xF00F, 0x8004, fun w => .addReg (Field.x w) (Field.y w)⟩,
    ⟨0xF00F, 0x8005, fun w => .subReg (Field.x w) (Field.y w)⟩,
    ⟨0xF00F, 0x8006, fun w => .shr (Field.x w) (Field.y w)⟩,
    ⟨0xF00F, 0x8007, fun w => .subnReg (Field.x w) (Field.y w)⟩,
    ⟨0xF00F, 0x800E, fun w => .shl (Field.x w) (Field.y w)⟩ ] ++
  [ ⟨0xF000, 0x9000, fun w => .sneReg (Field.x w) (Field.y w) (Field.n w)⟩,
    ⟨0xF000, 0xA000, fun w => .ldI (Field.nnn w)⟩,
    ⟨0xF000, 0xB000, fun w => .jpV0 (Field.nnn w)⟩,
    ⟨0xF000, 0xC000, fun w => .rnd (Field.x w) (Field.kk w)⟩,
    ⟨0xF000, 0xD000, fun w => .drw (Field.x w) (Field.y w) (Field.n w)⟩,
    ⟨0xF0FF, 0xE09E, fun w => .skp (Field.x w)⟩,
    ⟨0xF0FF, 0xE0A1, fun w => .sknp (Field.x w)⟩ ] ++
  [ ⟨0xF0FF, 0xF007, fun w => .ldVxDt (Field.x w)⟩,
    ⟨0xF0FF, 0xF00A, fun w => .ldVxK (Field.x w)⟩,
    ⟨0xF0FF, 0xF015, fun w => .ldDtVx (Field.x w)⟩,
    ⟨0xF0FF, 0xF018, fun w => .ldStVx (Field.x w)⟩,
    ⟨0xF0FF, 0xF01E, fun w => .addI (Field.x w)⟩,
    ⟨0xF0FF, 0xF029, fun w => .ldF (Field.x w)⟩,
    ⟨0xF0FF, 0xF033, fun w => .ldB (Field.x w)⟩,
    ⟨0xF0FF, 0xF055, fun w => .storeRegs (Field.x w)⟩,
    ⟨0xF0FF, 0xF065, fun w => .loadRegs (Field.x w)⟩ ]

/-! ## The host's view of the decoder -/

/-- The word whose low `nbits` bits are those of `w`, the bits above them 0. Every row has 16 bits. -/
def wordOfTable (nbits w : Nat) : Word := BitVec.ofNat 16 (w % 2 ^ nbits)

/-- The bytes of a table word as memory holds them, high byte at the lower address (R54). -/
def bytesOfTable (nbits w : Nat) : List Byte :=
  [(wordOfTable nbits w).extractLsb' 8 8, (wordOfTable nbits w).extractLsb' 0 8]

/-- What the decoder reads from an instruction whose bits are `w`, numbered as spec/opcode_table.json numbers them. -/
def decodeTableWord (nbits w : Nat) : Option Instr :=
  match decodeBytes (bytesOfTable nbits w) with
  | .ok (i, _) => some i
  | .error _ => none

end Sys2Proof
end

