-- ==== Sys2Proof/Machine/Control.lean ====
section
/-! DEFINITION. The meanings of the control-flow instructions (spec/40_control_flow.md R110 to R117). -/

namespace Sys2Proof.Machine

/-- `JP nnn`: `pc <- nnn` (R110). -/
def execJp (nnn : Addr) (s : State) : Host.Outcome State Fault Refusal := .next (s.jumpTo (addrWord nnn))

/-- `CALL nnn`: `StackOverflow` if SP = 16, else push `npc` and jump (R111). -/
def execCall (nnn : Addr) (s : State) : Host.Outcome State Fault Refusal :=
  match s.push s.npc with
  | some t => .next (t.jumpTo (addrWord nnn))
  | none => .next (s.raise .stackOverflow (encode (.call nnn)))

/-- `RET`: `StackUnderflow` if SP = 0, else pop into PC (R112). -/
def execRet (u : Nibble) (s : State) : Host.Outcome State Fault Refusal :=
  match s.pop with
  | some (w, t) => .next (t.jumpTo w)
  | none => .next (s.raise .stackUnderflow (encode (.ret u)))

/-- `JP V0, nnn`: `pc <- nnn + V[0]` (R113). -/
def execJpV0 (nnn : Addr) (s : State) : Host.Outcome State Fault Refusal :=
  .next (s.jumpTo (offsetTarget nnn (s.getV 0)))

/-- `SE Vx, byte` (R114). -/
def execSeByte (x : Nibble) (kk : Byte) (s : State) : Host.Outcome State Fault Refusal :=
  .next (s.skipIf (s.getV x == kk))

/-- `SNE Vx, byte` (R115). -/
def execSneByte (x : Nibble) (kk : Byte) (s : State) : Host.Outcome State Fault Refusal :=
  .next (s.skipIf (s.getV x != kk))

/-- `SE Vx, Vy`; bits 3:0 are ignored (R116). -/
def execSeReg (x y : Nibble) (s : State) : Host.Outcome State Fault Refusal :=
  .next (s.skipIf (s.getV x == s.getV y))

/-- `SNE Vx, Vy`; bits 3:0 are ignored (R117). -/
def execSneReg (x y : Nibble) (s : State) : Host.Outcome State Fault Refusal :=
  .next (s.skipIf (s.getV x != s.getV y))

end Sys2Proof.Machine
end

