-- ==== Sys2Proof/Machine/Display.lean ====
section
/-! DEFINITION. The meanings of the display instructions (spec/43_display.md R180, R181). -/

namespace Sys2Proof.Machine

/-- `CLS` (R180). -/
def execCls (s : State) : Host.Outcome State Fault Refusal := .next s.displayClear.advance

/-- `DRW Vx, Vy, n`: the sprite at I blitted at column Vx, row Vy; VF the collision; n = 0 cannot fault (R181). -/
def execDrw (x y n : Nibble) (s : State) : Host.Outcome State Fault Refusal :=
  if n = 0 ∨ s.inBounds (n.toNat - 1) then
    let (t, c) := s.displayBlit (s.getV x) (s.getV y) n
    .next (t.setV flagReg (flagByte c)).advance
  else .next (s.raise .memoryOutOfBounds (encode (.drw x y n)))

end Sys2Proof.Machine
end

