-- ==== Sys2Proof/Machine/IndexMemory.lean ====
section
/-! DEFINITION. The meanings of the index and memory instructions (spec/42_index_memory.md R160 to R166). -/

namespace Sys2Proof.Machine

/-- `LD I, nnn` (R160). -/
def execLdI (nnn : Addr) (s : State) : Host.Outcome State Fault Refusal :=
  .next { s with i := addrWord nnn }.advance

/-- `ADD I, Vx`, modulo 4096, no flag (R161). -/
def execAddI (x : Nibble) (s : State) : Host.Outcome State Fault Refusal :=
  .next { s with i := indexSum s.i (s.getV x) }.advance

/-- `LD F, Vx` (R162). -/
def execLdF (x : Nibble) (s : State) : Host.Outcome State Fault Refusal :=
  .next { s with i := glyphAddr (s.getV x) }.advance

/-- `LD B, Vx`: three decimal digits at I; I is not changed (R164). -/
def execLdB (x : Nibble) (s : State) : Host.Outcome State Fault Refusal :=
  if s.inBounds 2 then .next (s.storeAtI (decimalDigits (s.getV x))).advance
  else .next (s.raise .memoryOutOfBounds (encode (.ldB x)))

/-- `LD [I], Vx`: V0 to Vx stored at I; I becomes I + x + 1 (R165). -/
def execStoreRegs (x : Nibble) (s : State) : Host.Outcome State Fault Refusal :=
  if s.inBounds x.toNat then
    .next { s.storeAtI (s.regsUpTo x) with i := indexAfterBlock s.i x }.advance
  else .next (s.raise .memoryOutOfBounds (encode (.storeRegs x)))

/-- `LD Vx, [I]`: V0 to Vx loaded from I; I becomes I + x + 1 (R166). -/
def execLoadRegs (x : Nibble) (s : State) : Host.Outcome State Fault Refusal :=
  if s.inBounds x.toNat then
    .next { s.loadRegsAtI x with i := indexAfterBlock s.i x }.advance
  else .next (s.raise .memoryOutOfBounds (encode (.loadRegs x)))

end Sys2Proof.Machine
end

