-- ==== Sys2Proof/Machine/Input.lean ====
section
/-! DEFINITION. The meanings of the keyboard, timer-register and random instructions (spec/44_keys_timers_random.md R201 to
R208). -/

namespace Sys2Proof.Machine

/-- `SKP Vx` (R201). -/
def execSkp (x : Nibble) (s : State) : Host.Outcome State Fault Refusal :=
  .next (s.afterKeySample.skipIf (keyPressed s.keySample (s.getV x)))

/-- `SKNP Vx` (R202). -/
def execSknp (x : Nibble) (s : State) : Host.Outcome State Fault Refusal :=
  .next (s.afterKeySample.skipIf (!keyPressed s.keySample (s.getV x)))

/-- `LD Vx, K`: the wait begins; Vx is not written by this step (R203). -/
def execLdVxK (x : Nibble) (s : State) : Host.Outcome State Fault Refusal :=
  .next { s with wx := x, mode := .waitingForKey }.advance

/-- `LD Vx, DT` (R205). -/
def execLdVxDt (x : Nibble) (s : State) : Host.Outcome State Fault Refusal := .next (s.setV x s.dt).advance

/-- `LD DT, Vx` (R206). -/
def execLdDtVx (x : Nibble) (s : State) : Host.Outcome State Fault Refusal :=
  .next { s with dt := s.getV x }.advance

/-- `LD ST, Vx` (R207). -/
def execLdStVx (x : Nibble) (s : State) : Host.Outcome State Fault Refusal :=
  .next { s with st := s.getV x }.advance

/-- `RND Vx, byte`: `V[x] <- r & kk` for the sampled byte r (R208). -/
def execRnd (x : Nibble) (kk : Byte) (s : State) : Host.Outcome State Fault Refusal :=
  .next (s.afterRndSample.setV x (s.rndSample &&& kk)).advance

end Sys2Proof.Machine
end

