-- ==== Sys2Proof/Machine/Events.lean ====
section
/-! DEFINITION. Which atomic step of spec/60_exceptions.md R234 falls next: the outside world's list first, then free values
(log entries 1 and 2); and the steps of the host (R260 to R265). -/

namespace Sys2Proof.Machine

/-- Both timers are 0, so that a tick would change nothing (R236). -/
def State.timersIdle (s : State) : Bool := s.dt == 0 && s.st == 0

/-- An instruction step is enabled: `mode = Running` and `run = 1` (R118). -/
def State.instrEnabled (s : State) : Bool := s.mode == .running && s.run

/-- What falls next once the outside world's list is empty, and the state with the free values it took used up.
Between two instruction steps any number of ticks may fall (R238); a key event, or none, may fall in a key wait (R203). Ticks
and key events that would change nothing are not drawn. -/
def State.freeEvent (s : State) : Event × State :=
  match s.mode with
  | .running =>
    if s.timersIdle then (.instr, s)
    else if s.run then
      (if Config.tickFalls s.draws then .tick else .instr, { s with draws := s.draws + 1 })
    else (.tick, s)
  | .waitingForKey =>
    match Config.keyEvent s.draws with
    | some k => (.key k, { s with draws := s.draws + 1 })
    | none => (if s.timersIdle then .instr else .tick, { s with draws := s.draws + 1 })
  | .halted => (if s.timersIdle then .instr else .tick, s)

/-- The next step and the state without it. -/
def State.nextEvent (s : State) : Event × State :=
  match s.outside with
  | e :: rest => (e, { s with outside := rest })
  | [] => s.freeEvent

/-- The host's write through the load port: open only while `run = 0` (R263, R272). -/
def loadStep (a : Addr) (d : Byte) (s : State) : Host.Outcome State Fault Refusal :=
  if s.run then .refused .loadWhileRunning else .next (s.hostLoad a d)

/-- An instruction step where none is enabled: nothing happens, but in `Halted` the machine has stopped (R118, R227;
log entry 7). -/
def disabledStep (s : State) : Host.Outcome State Fault Refusal :=
  match s.mode with
  | .running => .next s
  | .waitingForKey => .next s
  | .halted => .fault (.halted s.faultKind)

/-! ## Placing an instruction for the next step (Sys2Proof/Machine/Step.lean, withFetchWord; log entry 5) -/

/-- The state in which an instruction step is enabled and falls next, at an address that can be fetched. -/
def State.readyToFetch (s : State) : State :=
  { s with
    mode := .running
    run := true
    pc := if s.pc.toNat > 0xFFE then Config.entry else s.pc
    outside := if s.outside = [] ∧ s.timersIdle then [] else .instr :: s.outside }

/-- The bytes of a word stored at PC, high byte first (R54). -/
def State.placeWord (s : State) (bs : List Byte) : State :=
  { s with mem := Memory.writeBytes s.mem s.pc.toNat bs }

end Sys2Proof.Machine
end

