-- ==== Sys2Proof/Machine/AtomicSteps.lean ====
section
/-! DEFINITION. The five kinds of atomic step (spec/60_exceptions.md R234), the instruction step among them
(40_control_flow.md R118, 60_exceptions.md R229). -/

namespace Sys2Proof.Machine

/-- The instruction step (R118): fetch, decode, execute, commit; the first stage that raises ends it (R229). -/
def instrStep (s : State) : Host.Outcome State Fault Refusal :=
  if s.instrEnabled then
    match s.fetch with
    | none => .next (s.raise .memoryOutOfBounds 0x0000)
    | some w =>
      match decode w with
      | .error _ => .next (s.raise .unimplementedOpcode w)
      | .ok i => exec i s
  else disabledStep s

/-- The step of an event of R234. -/
def eventStep (e : Event) (s : State) : Host.Outcome State Fault Refusal :=
  match e with
  | .instr => instrStep s
  | .tick => .next s.tick
  | .key k => .next (s.keyEvent k)
  | .reset => .next s.hostReset
  | .load a d => loadStep a d s
  | .run b => .next (s.hostRun b)

end Sys2Proof.Machine
end

