-- ==== Sys2Proof/Machine/Step.lean ====
section
/-! DEFINITION. One atomic step of the machine (spec/40_control_flow.md R118, 60_exceptions.md R229, R234). -/

namespace Sys2Proof.Machine

/-- One atomic step: what falls next, done (R234). -/
def step (s : State) : Host.Outcome State Fault Refusal := eventStep s.nextEvent.1 s.nextEvent.2

/-- `s` with the instruction of bits `w` where the next step fetches it (log entry 5): stored at PC, high byte first. -/
def State.withFetchWord (s : State) (nbits w : Nat) : State :=
  s.readyToFetch.placeWord (bytesOfTable nbits w)

end Sys2Proof.Machine
end

