-- ==== Sys2Proof/Machine/Runs.lean ====
section
/-! DEFINITION. Where a run of a program starts and when it has ended (spec/70_reset_and_hazards.md R263, R264, R267). -/

namespace Sys2Proof.Machine

/-! ## The launch state (R264) -/

/-- The longest image the loader accepts: "4096 - base" = 3584 bytes (R263). -/
def imageRoom : Nat := Config.memSize - Config.entry.toNat

/-- The launch state of a program, its image the parameter: "the reset state of 10_state.md rule R38 with the program's
bytes written from `ENTRY` upward" (R264). Claims about a program are stated over `launch image` for an image of at most
`imageRoom` bytes. -/
def launch (image : List Byte) : State :=
  { State.reset with mem := Memory.writeBytes State.reset.mem Config.entry.toNat image }

/-- The load writes of bytes at ascending addresses from `a` (R263). -/
def loadEvents : Nat → List Byte → List Event
  | _, [] => []
  | a, b :: bs => .load (BitVec.ofNat 12 a) b :: loadEvents (a + 1) bs

/-- What the host does to launch an image after reset, "reset, then load, then run": `run` low, the bytes "in order at
`ENTRY`, `ENTRY + 1`, ...", `run` high (R263, R264). -/
def launchScript (image : List Byte) : List Event :=
  .run false :: (loadEvents Config.entry.toNat image ++ [.run true])

/-! ## The end of a run (R267) -/

/-- R267 (a): the run has ended in a fault, and has failed; "never a normal end of a program" (R227). -/
def State.failed (s : State) : Bool := s.mode == .halted

/-- R267 (b): the host holds `run` low, so that no instruction step starts; the state is whatever the program had reached. -/
def State.stoppedByHost (s : State) : Bool := !s.run

/-- R267 (c), the definition of "the program has ended" that the spec recommends: PC holds the address of a `JP` to itself,
the word 0x1nnn at address nnn, in `Running` (log entry 18). A real run also ends by (a), a fault, or by (b), the host
lowering `run`: neither needs this to hold. It says nothing of DT and ST after the point: ticks still change them. -/
def State.ended (s : State) : Bool :=
  s.mode == .running && s.fetch == some (encode (.jp (Field.nnn s.pc)))

end Sys2Proof.Machine
end

