-- ==== Sys2Proof/Safety.lean ====
section
/-! DEFINITION. What a sound state and a safe run are, and the other terms claims use: frames, fault entry, encodings, who may
write what (spec/10_state.md R21, R39, R40, 60_exceptions.md R222 to R227). -/

namespace Sys2Proof.Machine

/-- The values a program can reach in PC, I and the stack (R40). -/
def State.rangesOk (s : State) : Prop :=
  s.i.toNat ≤ 0x1000 ∧ s.pc.toNat ≤ 0x10FE ∧ ∀ j : Fin 16, s.stack[j.val].toNat ≤ 0x1000

/-- The fault record: a cause exactly in `Halted`, taken at the address PC still holds; nothing recorded before (R32, R226). -/
def State.recordOk (s : State) : Prop :=
  (s.faultKind ≠ .none ↔ s.mode = .halted) ∧
  (s.mode = .halted → s.faultAddr = s.pc) ∧
  (s.mode ≠ .halted → s.faultWord = 0 ∧ s.faultAddr = 0)

/-- The invariant of the machine: R40's ranges, the fault record, an idle command buffer between steps (R33), and the
memory list in its canonical form. -/
def State.Inv (s : State) : Prop :=
  s.rangesOk ∧ s.recordOk ∧ s.cb.valid = false ∧ Memory.wf s.mem = true

/-- "a run that reaches it has failed" (R227): a state is safe while the core has not halted. -/
def State.safe (s : State) : Prop := s.mode ≠ .halted

/-! ## Frames: what a step leaves as it was -/

/-- Every byte of memory reads as before. -/
def SameBytes (s t : State) : Prop := ∀ a, t.readByte a = s.readByte a

/-- Everything but PC is as before. -/
def FramePc (s t : State) : Prop := t = { s with pc := t.pc } ∧ SameBytes s t

/-- Everything but the registers V and PC is as before. -/
def FrameVPc (s t : State) : Prop := t = { s with v := t.v, pc := t.pc } ∧ SameBytes s t

/-- Everything but I and PC is as before. -/
def FrameIPc (s t : State) : Prop := t = { s with i := t.i, pc := t.pc } ∧ SameBytes s t

/-- The effect of a flag-writing ALU instruction: the result in Vx; the flag in VF unless VF is Vx itself; the other
registers, and everything but V and PC, as before; PC at the next instruction in line (R142). -/
def FlagAndResult (s t : State) (x : Nibble) (flag : Prop) [Decidable flag] (result : Nat) : Prop :=
  (t.getV x).toNat = result ∧ (x ≠ 0xF → t.getV 0xF = if flag then 1 else 0) ∧
  (∀ r, r ≠ x → r ≠ 0xF → t.getV r = s.getV r) ∧ t.pc = s.pc + 2 ∧ FrameVPc s t

/-! ## What the agents other than the instruction stream do (R234) -/

/-- `s` with what falls next taken from what the outside world has in store (log entries 1 and 2); nothing else differs.
With an event at the head of `outside` that is `s` without the event. -/
def afterEvent (s : State) : State := { s with outside := s.nextEvent.2.outside, draws := s.nextEvent.2.draws }

/-- A tick, a load write or a change of `run` falls next, and `t` is `s` after it, nothing else changed: both timers counted
down (R236), one byte written while `run` is 0 (R263), `run` set (R265). -/
def TickLoadOrRun (s t : State) : Prop :=
  (s.nextEvent.1 = .tick ∧ t = { afterEvent s with dt := countDown s.dt, st := countDown s.st }) ∨
  (∃ a d, s.nextEvent.1 = .load a d ∧ s.run = false ∧
    t = { afterEvent s with mem := Memory.write s.mem a.toNat d }) ∨
  (∃ b, s.nextEvent.1 = .run b ∧ t = { afterEvent s with run := b })

/-! ## Faults -/

/-- `t` is `s` after fault entry with cause `c` and word `w`, and nothing else changed (R226). -/
def FaultEntry (s t : State) (c : Cause) (w : Word) : Prop :=
  t = { s with mode := .halted, faultKind := c, faultWord := w, faultAddr := s.pc }

/-- The fault an instruction itself raises in a state, `none` where it raises none (R222, R223, R224 b). -/
def ownFault : Instr → State → Cause
  | .call _, s => if s.sp.val = 16 then .stackOverflow else .none
  | .ret _, s => if s.sp.val = 0 then .stackUnderflow else .none
  | .drw _ _ n, s => if n.toNat > 0 ∧ s.i.toNat + n.toNat - 1 > 0xFFF then .memoryOutOfBounds else .none
  | .ldB _, s => if s.i.toNat + 2 > 0xFFF then .memoryOutOfBounds else .none
  | .storeRegs x, s => if s.i.toNat + x.toNat > 0xFFF then .memoryOutOfBounds else .none
  | .loadRegs x, s => if s.i.toNat + x.toNat > 0xFFF then .memoryOutOfBounds else .none
  | _, _ => .none

/-! ## Encodings -/

/-- Every word with `w & mask == value` decodes to the instruction `build` makes of its fields (R86). -/
def Encodes (mask value : Word) (build : Word → Instr) : Prop := ∀ w, w &&& mask = value → decode w = .ok (build w)

/-! ## Who may write a register (R20, R21) -/

/-- Register `r` is a named destination of the instruction. -/
def namesDest : Instr → Nibble → Bool
  | .ldByte x _, r => r == x
  | .addByte x _, r => r == x
  | .ldReg x _, r => r == x
  | .orReg x _, r => r == x
  | .andReg x _, r => r == x
  | .xorReg x _, r => r == x
  | .addReg x _, r => r == x
  | .subReg x _, r => r == x
  | .shr x _, r => r == x
  | .subnReg x _, r => r == x
  | .shl x _, r => r == x
  | .rnd x _, r => r == x
  | .ldVxDt x, r => r == x
  | .loadRegs x, r => decide (r.toNat ≤ x.toNat)
  | _, _ => false

/-- The instruction writes VF as a side effect (R21). -/
def writesFlag : Instr → Bool
  | .addReg _ _ => true
  | .subReg _ _ => true
  | .shr _ _ => true
  | .subnReg _ _ => true
  | .shl _ _ => true
  | .drw _ _ _ => true
  | _ => false

/-! ## Sprites and sequences -/

/-- A set bit of the sprite of n rows at I, with its left edge at column cx and its top edge at row cy, falls on the pixel
at row R and column C (R186). -/
def SpriteCovers (s : State) (cx cy : Byte) (n : Nibble) (R : Fin 32) (C : Fin 64) : Prop :=
  ∃ r < n.toNat, ∃ c < 8, (s.readByte (s.i.toNat + r)).getLsbD (7 - c) = true ∧
    (cy.toNat + r) % 32 = R.val ∧ (cx.toNat + c) % 64 = C.val

/-- Instructions executed one after the other, stopping where one gives no next state. -/
def execAll : List Instr → State → Host.Outcome State Fault Refusal
  | [], s => .next s
  | i :: is, s =>
    match exec i s with
    | .next t => execAll is t
    | .fault f => .fault f
    | .refused r => .refused r

/-- Steps of the machine one after the other, stopping where one gives no next state. -/
def stepsFor : Nat → State → Host.Outcome State Fault Refusal
  | 0, s => .next s
  | n + 1, s =>
    match step s with
    | .next t => stepsFor n t
    | .fault f => .fault f
    | .refused r => .refused r

end Sys2Proof.Machine
end

