-- ==== Sys2Proof/Certificates/Slice0/Obligations.lean ====
section
/-! DEFINITION. The statements for the provers. Each docstring names the rule of spec/ it formalises. -/

open Sys2Proof Sys2Proof.Machine

/-! ## Control flow (40_control_flow.md) -/

/-- R110. `JP nnn`: PC = nnn, no other state touched; only the target 0xFFF cannot be fetched from. -/
def Obligations.JumpSetsOnlyPc : Prop :=
  Encodes 0xF000 0x1000 (fun w => .jp (Field.nnn w)) ∧
  ∀ (nnn : Addr) (s : State), ∃ t, exec (.jp nnn) s = .next t ∧
    t.pc.toNat = nnn.toNat ∧ FramePc s t ∧ (t.fetch = none ↔ nnn = 0xFFF)

/-- R111. `CALL nnn`: below SP = 16 the address after the call goes to slot SP, SP rises by 1, PC = nnn; at SP = 16
`StackOverflow` is raised and nothing else changes. -/
def Obligations.CallPushesReturnAddress : Prop :=
  Encodes 0xF000 0x2000 (fun w => .call (Field.nnn w)) ∧
  ∀ (nnn : Addr) (s : State), ∃ t, exec (.call nnn) s = .next t ∧
    if s.sp.val = 16 then FaultEntry s t .stackOverflow (formatA 0x2 nnn)
    else t.sp.val = s.sp.val + 1 ∧ t.pc.toNat = nnn.toNat ∧
      (∀ j : Fin 16, t.stack[j.val] = if j.val = s.sp.val then s.pc + 2 else s.stack[j.val]) ∧
      t = { s with stack := t.stack, sp := t.sp, pc := t.pc } ∧ SameBytes s t

/-- R111, "16 consecutive CALLs succeed; the 17th fails": from an empty stack, whatever the targets. -/
def Obligations.SixteenCallsThenOverflow : Prop :=
  ∀ (s : State) (targets : List Addr), s.sp.val = 0 → targets.length = 16 →
    ∃ t, execAll (targets.map .call) s = .next t ∧ t.sp.val = 16 ∧ t.mode = s.mode ∧
      ∀ nnn, ∃ t', exec (.call nnn) t = .next t' ∧ FaultEntry t t' .stackOverflow (formatA 0x2 nnn)

/-- R112. `RET`: above SP = 0 the slot under SP goes to PC, all 16 bits, and SP falls by 1, the slot kept; at SP = 0
`StackUnderflow` is raised with the word as fetched. -/
def Obligations.RetPopsIntoPc : Prop :=
  Encodes 0xF0FF 0x00EE (fun w => .ret (Field.x w)) ∧
  ∀ (u : Nibble) (s : State), ∃ t, exec (.ret u) s = .next t ∧
    if h : s.sp.val = 0 then FaultEntry s t .stackUnderflow (formatXK 0x0 u 0xEE)
    else t.sp.val = s.sp.val - 1 ∧ t.pc = s.stack[s.sp.val - 1]'(by omega) ∧
      t = { s with sp := t.sp, pc := t.pc } ∧ SameBytes s t

/-- R112. "`CALL nnn` immediately followed by `RET` restores PC to the address immediately after the CALL instruction, and SP
to its pre-CALL value", from every state with a slot left. Afterwards that slot holds the return address (R25), the other
slots are as before, and nothing but the stack and PC differs. -/
def Obligations.CallThenRetRestores : Prop :=
  ∀ (nnn : Addr) (u : Nibble) (s : State), s.sp.val < 16 →
    ∃ t, execAll [.call nnn, .ret u] s = .next t ∧ t.pc = s.pc + 2 ∧
      (∀ j : Fin 16, t.stack[j.val] = if j.val = s.sp.val then s.pc + 2 else s.stack[j.val]) ∧
      t = { s with stack := t.stack, pc := t.pc } ∧ SameBytes s t

/-- R113. `JP V0, nnn`: PC = nnn + V0, not masked; a sum above 0xFFE cannot be fetched from. -/
def Obligations.JumpOffsetIsNotMasked : Prop :=
  Encodes 0xF000 0xB000 (fun w => .jpV0 (Field.nnn w)) ∧
  ∀ (nnn : Addr) (s : State), ∃ t, exec (.jpV0 nnn) s = .next t ∧
    t.pc.toNat = nnn.toNat + (s.getV 0).toNat ∧ FramePc s t ∧
    (t.fetch = none ↔ nnn.toNat + (s.getV 0).toNat > 0xFFE)

/-- R114, R115. `SE Vx, byte` and `SNE Vx, byte`: PC + 4 when the condition holds, else PC + 2; nothing else. -/
def Obligations.SkipsCompareByte : Prop :=
  Encodes 0xF000 0x3000 (fun w => .seByte (Field.x w) (Field.kk w)) ∧
  Encodes 0xF000 0x4000 (fun w => .sneByte (Field.x w) (Field.kk w)) ∧
  ∀ (x : Nibble) (kk : Byte) (s : State),
    (∃ t, exec (.seByte x kk) s = .next t ∧ t.pc = (if s.getV x = kk then s.pc + 4 else s.pc + 2) ∧ FramePc s t) ∧
    (∃ t, exec (.sneByte x kk) s = .next t ∧ t.pc = (if s.getV x ≠ kk then s.pc + 4 else s.pc + 2) ∧ FramePc s t)

/-- R116, R117. `SE Vx, Vy` and `SNE Vx, Vy`, whatever bits 3:0 are; with x = y the first always and the second never skips. -/
def Obligations.SkipsCompareRegisters : Prop :=
  Encodes 0xF000 0x5000 (fun w => .seReg (Field.x w) (Field.y w) (Field.n w)) ∧
  Encodes 0xF000 0x9000 (fun w => .sneReg (Field.x w) (Field.y w) (Field.n w)) ∧
  ∀ (x y u : Nibble) (s : State),
    (∃ t, exec (.seReg x y u) s = .next t ∧
      t.pc = (if s.getV x = s.getV y then s.pc + 4 else s.pc + 2) ∧ FramePc s t) ∧
    (∃ t, exec (.sneReg x y u) s = .next t ∧
      t.pc = (if s.getV x ≠ s.getV y then s.pc + 4 else s.pc + 2) ∧ FramePc s t)

/-! ## ALU (41_alu.md) -/

/-- R130, R131. `LD Vx, byte`: Vx = kk. `ADD Vx, byte`: Vx = (Vx + kk) mod 256 and no flag, for every x, VF among them. -/
def Obligations.ImmediateLoadAndAdd : Prop :=
  Encodes 0xF000 0x6000 (fun w => .ldByte (Field.x w) (Field.kk w)) ∧
  Encodes 0xF000 0x7000 (fun w => .addByte (Field.x w) (Field.kk w)) ∧
  ∀ (x : Nibble) (kk : Byte) (s : State),
    (∃ t, exec (.ldByte x kk) s = .next t ∧ t.getV x = kk ∧
      (∀ r, r ≠ x → t.getV r = s.getV r) ∧ t.pc = s.pc + 2 ∧ FrameVPc s t) ∧
    (∃ t, exec (.addByte x kk) s = .next t ∧ (t.getV x).toNat = ((s.getV x).toNat + kk.toNat) % 256 ∧
      (∀ r, r ≠ x → t.getV r = s.getV r) ∧ t.pc = s.pc + 2 ∧ FrameVPc s t)

/-- R132 to R135. `LD`, `OR`, `AND`, `XOR Vx, Vy`: the result bit by bit in Vx, every other register (VF too) as before. -/
def Obligations.CopyAndLogicWriteOnlyVx : Prop :=
  Encodes 0xF00F 0x8000 (fun w => .ldReg (Field.x w) (Field.y w)) ∧
  Encodes 0xF00F 0x8001 (fun w => .orReg (Field.x w) (Field.y w)) ∧
  Encodes 0xF00F 0x8002 (fun w => .andReg (Field.x w) (Field.y w)) ∧
  Encodes 0xF00F 0x8003 (fun w => .xorReg (Field.x w) (Field.y w)) ∧
  ∀ (x y : Nibble) (s : State) (i : Instr) (f : Bool → Bool → Bool),
    (i, f) = (.ldReg x y, fun _ b => b) ∨ (i, f) = (.orReg x y, or) ∨ (i, f) = (.andReg x y, and) ∨
      (i, f) = (.xorReg x y, xor) →
    ∃ t, exec i s = .next t ∧
      (∀ k < 8, (t.getV x).getLsbD k = f ((s.getV x).getLsbD k) ((s.getV y).getLsbD k)) ∧
      (∀ r, r ≠ x → t.getV r = s.getV r) ∧ t.pc = s.pc + 2 ∧ FrameVPc s t

/-- R136. `ADD Vx, Vy`: Vx = (Vx + Vy) mod 256, VF = 1 if the sum exceeds 255 else 0; with x = 0xF the sum remains. -/
def Obligations.AddRegisterSetsCarry : Prop :=
  Encodes 0xF00F 0x8004 (fun w => .addReg (Field.x w) (Field.y w)) ∧
  ∀ (x y : Nibble) (s : State), ∃ t, exec (.addReg x y) s = .next t ∧
    FlagAndResult s t x ((s.getV x).toNat + (s.getV y).toNat > 255) (((s.getV x).toNat + (s.getV y).toNat) % 256)

/-- R137. `SUB Vx, Vy`: Vx = (Vx - Vy) mod 256, VF = 1 if Vx >= Vy else 0; with x = 0xF the difference remains. -/
def Obligations.SubtractSetsNoBorrow : Prop :=
  Encodes 0xF00F 0x8005 (fun w => .subReg (Field.x w) (Field.y w)) ∧
  ∀ (x y : Nibble) (s : State), ∃ t, exec (.subReg x y) s = .next t ∧
    FlagAndResult s t x ((s.getV x).toNat ≥ (s.getV y).toNat) (((s.getV x).toNat + 256 - (s.getV y).toNat) % 256)

/-- R138. `SHR Vx`: Vx = Vx / 2, VF = the old bit 0, whatever bits 7:4 of the word are. -/
def Obligations.ShiftRightSetsLostBit : Prop :=
  Encodes 0xF00F 0x8006 (fun w => .shr (Field.x w) (Field.y w)) ∧
  ∀ (x u : Nibble) (s : State), ∃ t, exec (.shr x u) s = .next t ∧
    FlagAndResult s t x ((s.getV x).toNat % 2 = 1) ((s.getV x).toNat / 2)

/-- R139. `SUBN Vx, Vy`: Vx = (Vy - Vx) mod 256, VF = 1 if Vy >= Vx else 0; with x = 0xF the difference remains. -/
def Obligations.ReverseSubtractSetsNoBorrow : Prop :=
  Encodes 0xF00F 0x8007 (fun w => .subnReg (Field.x w) (Field.y w)) ∧
  ∀ (x y : Nibble) (s : State), ∃ t, exec (.subnReg x y) s = .next t ∧
    FlagAndResult s t x ((s.getV y).toNat ≥ (s.getV x).toNat) (((s.getV y).toNat + 256 - (s.getV x).toNat) % 256)

/-- R140. `SHL Vx`: Vx = 2 Vx mod 256, VF = the old bit 7, whatever bits 7:4 of the word are. -/
def Obligations.ShiftLeftSetsLostBit : Prop :=
  Encodes 0xF00F 0x800E (fun w => .shl (Field.x w) (Field.y w)) ∧
  ∀ (x u : Nibble) (s : State), ∃ t, exec (.shl x u) s = .next t ∧
    FlagAndResult s t x ((s.getV x).toNat ≥ 128) ((s.getV x).toNat * 2 % 256)

/-! ## Index register and memory (42_index_memory.md, 20_memory.md) -/

/-- R160. `LD I, nnn`: I = nnn, bits 15:12 zero; nothing else but PC. -/
def Obligations.LoadIndexImmediate : Prop :=
  Encodes 0xF000 0xA000 (fun w => .ldI (Field.nnn w)) ∧
  ∀ (nnn : Addr) (s : State), ∃ t, exec (.ldI nnn) s = .next t ∧
    t.i.toNat = nnn.toNat ∧ t.pc = s.pc + 2 ∧ FrameIPc s t

/-- R161. `ADD I, Vx`: I = (I + Vx) mod 4096, also from I = 0x1000; VF not written. -/
def Obligations.AddIndexWraps : Prop :=
  Encodes 0xF0FF 0xF01E (fun w => .addI (Field.x w)) ∧
  ∀ (x : Nibble) (s : State), ∃ t, exec (.addI x) s = .next t ∧
    t.i.toNat = (s.i.toNat + (s.getV x).toNat) % 4096 ∧ t.pc = s.pc + 2 ∧ FrameIPc s t

/-- R162. `LD F, Vx`: I = `FONT_BASE` + 5 times the low nibble of Vx; no memory is accessed. -/
def Obligations.LoadGlyphAddress : Prop :=
  Encodes 0xF0FF 0xF029 (fun w => .ldF (Field.x w)) ∧
  ∀ (x : Nibble) (s : State), ∃ t, exec (.ldF x) s = .next t ∧
    t.i.toNat = fontBase + 5 * ((s.getV x).toNat % 16) ∧ t.pc = s.pc + 2 ∧ FrameIPc s t

/-- R164. `LD B, Vx`: the hundreds, tens and ones of Vx at I, I + 1, I + 2, every other byte as before and I too; where
I + 2 > 0xFFF, `MemoryOutOfBounds` and nothing written. -/
def Obligations.StoreDecimalDigits : Prop :=
  Encodes 0xF0FF 0xF033 (fun w => .ldB (Field.x w)) ∧
  ∀ (x : Nibble) (s : State), ∃ t, exec (.ldB x) s = .next t ∧
    if s.i.toNat + 2 > 0xFFF then FaultEntry s t .memoryOutOfBounds (formatXK 0xF x 0x33)
    else (t.readByte s.i.toNat).toNat = (s.getV x).toNat / 100 ∧
      (t.readByte (s.i.toNat + 1)).toNat = (s.getV x).toNat / 10 % 10 ∧
      (t.readByte (s.i.toNat + 2)).toNat = (s.getV x).toNat % 10 ∧
      (∀ a, a < s.i.toNat ∨ s.i.toNat + 3 ≤ a → t.readByte a = s.readByte a) ∧
      t.pc = s.pc + 2 ∧ t = { s with mem := t.mem, pc := t.pc }

/-- R165. `LD [I], Vx`: V0 to Vx at I to I + x, every other byte as before, I = I + x + 1 unmasked, V as before; where
I + x > 0xFFF, `MemoryOutOfBounds`, no byte written and I as before. -/
def Obligations.StoreRegisterBlock : Prop :=
  Encodes 0xF0FF 0xF055 (fun w => .storeRegs (Field.x w)) ∧
  ∀ (x : Nibble) (s : State), ∃ t, exec (.storeRegs x) s = .next t ∧
    if s.i.toNat + x.toNat > 0xFFF then FaultEntry s t .memoryOutOfBounds (formatXK 0xF x 0x55)
    else (∀ r : Nibble, r.toNat ≤ x.toNat → t.readByte (s.i.toNat + r.toNat) = s.getV r) ∧
      (∀ a, a < s.i.toNat ∨ s.i.toNat + x.toNat + 1 ≤ a → t.readByte a = s.readByte a) ∧
      t.i.toNat = s.i.toNat + x.toNat + 1 ∧ t.pc = s.pc + 2 ∧
      t = { s with mem := t.mem, i := t.i, pc := t.pc }

/-- R166. `LD Vx, [I]`: V0 to Vx from I to I + x, the other registers as before, I = I + x + 1 unmasked, memory as before;
where I + x > 0xFFF, `MemoryOutOfBounds`, no register written and I as before. -/
def Obligations.LoadRegisterBlock : Prop :=
  Encodes 0xF0FF 0xF065 (fun w => .loadRegs (Field.x w)) ∧
  ∀ (x : Nibble) (s : State), ∃ t, exec (.loadRegs x) s = .next t ∧
    if s.i.toNat + x.toNat > 0xFFF then FaultEntry s t .memoryOutOfBounds (formatXK 0xF x 0x65)
    else (∀ r : Nibble, t.getV r = if r.toNat ≤ x.toNat then s.readByte (s.i.toNat + r.toNat) else s.getV r) ∧
      t.i.toNat = s.i.toNat + x.toNat + 1 ∧ t.pc = s.pc + 2 ∧
      t = { s with v := t.v, i := t.i, pc := t.pc } ∧ SameBytes s t

/-- R165 with R166: after a block has been stored, whatever values w the registers are then given, setting I back and loading
the block gives V0 to Vx the stored values again, leaves the registers above Vx at w, and changes no byte. -/
def Obligations.StoreThenLoadRestoresRegisters : Prop :=
  ∀ (x : Nibble) (nnn : Addr) (s : State), nnn.toNat + x.toNat ≤ 0xFFF →
    ∃ t, execAll [.ldI nnn, .storeRegs x] s = .next t ∧ ∀ w : Vector Byte 16,
      ∃ u, execAll [.ldI nnn, .loadRegs x] { t with v := w } = .next u ∧
        (∀ r : Nibble, u.getV r = if r.toNat ≤ x.toNat then s.getV r else w[r.toNat]'r.isLt) ∧
        u.i.toNat = nnn.toNat + x.toNat + 1 ∧ SameBytes t u

/-- R64. A store over the next instruction is what the very next fetch reads: `LD [I], Vx` with x >= 1 and I at the next
instruction makes the fetched word V0 (high byte) and V1 (low byte). -/
def Obligations.StoreIsSeenByNextFetch : Prop :=
  ∀ (x : Nibble) (s : State), 1 ≤ x.toNat → s.pc.toNat + 2 + x.toNat ≤ 0xFFF → s.i = s.pc + 2 →
    ∃ t, exec (.storeRegs x) s = .next t ∧ t.fetch = some (wordOfBytes (s.getV 0) (s.getV 1))

/-- R50. No instruction but `LD B, Vx` and `LD [I], Vx` writes memory. -/
def Obligations.OnlyStoresWriteMemory : Prop :=
  ∀ (i : Instr) (s t : State), exec i s = .next t →
    t.mem = s.mem ∨ (∃ x, i = .ldB x) ∨ (∃ x, i = .storeRegs x)

/-! ## Display (43_display.md) -/

/-- R180, R182, R185. `CLS`: every pixel 0; a CLEAR request has gone through the command buffer; no register, no memory byte
and no VF changes. -/
def Obligations.ClearDisplaySetsEveryPixelZero : Prop :=
  Encodes 0xF0FF 0x00E0 (fun w => .cls (Field.x w)) ∧
  ∀ (u : Nibble) (s : State), ∃ t, exec (.cls u) s = .next t ∧
    (∀ R C, pixel t.fb R C = false) ∧ t.cb.kind = .clear ∧ t.cb.valid = false ∧ t.pc = s.pc + 2 ∧
    t = { s with fb := t.fb, cb := t.cb, pc := t.pc } ∧ SameBytes s t

/-- R181, R183, R186, R187. `DRW Vx, Vy, n`: each pixel is XORed with the sprite bit that falls on it; VF = 1 exactly if a
sprite bit fell on a pixel that was 1; a BLIT request with the raw coordinates has gone through the command buffer; I, the
other registers and memory as before. Past 0xFFF, `MemoryOutOfBounds`, and with n = 0 never. -/
def Obligations.DrawSpriteXorsAndReportsCollision : Prop :=
  Encodes 0xF000 0xD000 (fun w => .drw (Field.x w) (Field.y w) (Field.n w)) ∧
  ∀ (x y n : Nibble) (s : State), ∃ t, exec (.drw x y n) s = .next t ∧
    if n.toNat > 0 ∧ s.i.toNat + n.toNat - 1 > 0xFFF then FaultEntry s t .memoryOutOfBounds (formatXY 0xD x y n)
    else
      (∀ R C, (SpriteCovers s (s.getV x) (s.getV y) n R C → pixel t.fb R C = !pixel s.fb R C) ∧
        (¬ SpriteCovers s (s.getV x) (s.getV y) n R C → pixel t.fb R C = pixel s.fb R C)) ∧
      ((∃ R C, SpriteCovers s (s.getV x) (s.getV y) n R C ∧ pixel s.fb R C = true) → t.getV 0xF = 1) ∧
      (¬ (∃ R C, SpriteCovers s (s.getV x) (s.getV y) n R C ∧ pixel s.fb R C = true) → t.getV 0xF = 0) ∧
      (∀ r, r ≠ 0xF → t.getV r = s.getV r) ∧
      t.cb.kind = .blit ∧ t.cb.x = s.getV x ∧ t.cb.y = s.getV y ∧ t.cb.n = n ∧ t.cb.valid = false ∧
      (∀ r : Fin 15, t.cb.row[r.val] = if r.val < n.toNat then s.readByte (s.i.toNat + r.val) else s.cb.row[r.val]) ∧
      t.pc = s.pc + 2 ∧ t = { s with v := t.v, fb := t.fb, cb := t.cb, pc := t.pc } ∧ SameBytes s t

/-- R186, R187, and log entry 10 for the collision clause. A BLIT of at most 15 rows done twice with the same arguments
restores the display, as R188 says. The second one reports a collision exactly if a sprite bit fell on a pixel that was 0 at
first: this clause is the model's reading of R186 and R187 (log entry 10, DEDUCED); it departs from R188's remark that the
second one returns 1 when any sprite bit is 1. -/
def Obligations.BlitTwiceRestores : Prop :=
  ∀ (fb : Vector (BitVec 64) 32) (cx : Byte) (cy : Nat) (rows : List Byte), rows.length ≤ 15 →
    blitRows (blitRows fb cx cy rows) cx cy rows = fb ∧
    (collides (blitRows fb cx cy rows) cx cy rows = true ↔
      ∃ k, ∃ h : k < rows.length, ∃ c < 8, rows[k].getLsbD (7 - c) = true ∧
        fb[(cy + k) % 32].getLsbD ((cx.toNat + c) % 64) = false)

/-- R184. No instruction but `CLS` and `DRW` changes a pixel or the command buffer. -/
def Obligations.OnlyCommandsChangeDisplay : Prop :=
  ∀ (i : Instr) (s t : State), exec i s = .next t →
    (t.fb = s.fb ∧ t.cb = s.cb) ∨ (∃ u, i = .cls u) ∨ (∃ x y n, i = .drw x y n)

/-! ## Keyboard, timers, random (44_keys_timers_random.md) -/

/-- R201, R202. `SKP Vx` and `SKNP Vx`, for every value of `key_state` the step samples: pressed exactly if Vx <= 15 and the
level of key Vx is 1. Besides PC only the model's own record of what has been sampled changes. -/
def Obligations.KeySkipsReadSampledLevel : Prop :=
  Encodes 0xF0FF 0xE09E (fun w => .skp (Field.x w)) ∧ Encodes 0xF0FF 0xE0A1 (fun w => .sknp (Field.x w)) ∧
  ∀ (x : Nibble) (s : State),
    (∃ t, exec (.skp x) s = .next t ∧
      t.pc = (if (s.getV x).toNat ≤ 0xF ∧ s.keySample.getLsbD (s.getV x).toNat = true then s.pc + 4 else s.pc + 2) ∧
      t = { s with pc := t.pc, keyIn := t.keyIn, draws := t.draws } ∧ SameBytes s t) ∧
    (∃ t, exec (.sknp x) s = .next t ∧
      t.pc = (if (s.getV x).toNat ≤ 0xF ∧ s.keySample.getLsbD (s.getV x).toNat = true then s.pc + 2 else s.pc + 4) ∧
      t = { s with pc := t.pc, keyIn := t.keyIn, draws := t.draws } ∧ SameBytes s t)

/-- R203. `LD Vx, K`: `wx` = x, mode `WaitingForKey`, PC at the next instruction; Vx not written. -/
def Obligations.WaitForKeyBegins : Prop :=
  Encodes 0xF0FF 0xF00A (fun w => .ldVxK (Field.x w)) ∧
  ∀ (x : Nibble) (s : State), ∃ t, exec (.ldVxK x) s = .next t ∧
    t.wx = x ∧ t.mode = .waitingForKey ∧ t.pc = s.pc + 2 ∧
    t = { s with wx := t.wx, mode := t.mode, pc := t.pc } ∧ SameBytes s t

/-- R204. Whenever a key event falls, given by the outside world's list or drawn: it ends a wait with V[wx] = the key's value and
mode `Running`, nothing else changed; in another mode it is dropped and changes nothing. -/
def Obligations.KeyEventEndsWait : Prop :=
  ∀ (k : Nibble) (s : State), s.nextEvent.1 = .key k →
    ∃ t, step s = .next t ∧
      if s.mode = .waitingForKey then
        (t.getV s.wx).toNat = k.toNat ∧ (∀ r, r ≠ s.wx → t.getV r = s.getV r) ∧ t.mode = .running ∧
        t = { afterEvent s with v := t.v, mode := t.mode } ∧ SameBytes s t
      else t = afterEvent s

/-- R205 to R207. `LD Vx, DT` copies DT to Vx, `LD DT, Vx` and `LD ST, Vx` copy Vx to a timer; `sound_active` follows ST. -/
def Obligations.TimerRegisterCopies : Prop :=
  Encodes 0xF0FF 0xF007 (fun w => .ldVxDt (Field.x w)) ∧ Encodes 0xF0FF 0xF015 (fun w => .ldDtVx (Field.x w)) ∧
  Encodes 0xF0FF 0xF018 (fun w => .ldStVx (Field.x w)) ∧
  ∀ (x : Nibble) (s : State),
    (∃ t, exec (.ldVxDt x) s = .next t ∧ t.getV x = s.dt ∧ (∀ r, r ≠ x → t.getV r = s.getV r) ∧
      t.pc = s.pc + 2 ∧ FrameVPc s t) ∧
    (∃ t, exec (.ldDtVx x) s = .next t ∧ t.dt = s.getV x ∧ t.pc = s.pc + 2 ∧
      t = { s with dt := t.dt, pc := t.pc } ∧ SameBytes s t) ∧
    (∃ t, exec (.ldStVx x) s = .next t ∧ t.st = s.getV x ∧ (t.soundActive = true ↔ s.getV x ≠ 0) ∧ t.pc = s.pc + 2 ∧
      t = { s with st := t.st, pc := t.pc } ∧ SameBytes s t)

/-- R208. `RND Vx, byte`, for every byte r the step samples: Vx = r & kk, bit by bit, so that no bit outside kk is set. Besides
Vx and PC only the model's own record of what has been sampled changes. -/
def Obligations.RandomByteIsMasked : Prop :=
  Encodes 0xF000 0xC000 (fun w => .rnd (Field.x w) (Field.kk w)) ∧
  ∀ (x : Nibble) (kk : Byte) (s : State), ∃ t, exec (.rnd x kk) s = .next t ∧
    (∀ k < 8, (t.getV x).getLsbD k = (s.rndSample.getLsbD k && kk.getLsbD k)) ∧
    (∀ r, r ≠ x → t.getV r = s.getV r) ∧ t.pc = s.pc + 2 ∧
    t = { s with v := t.v, pc := t.pc, rndIn := t.rndIn, draws := t.draws } ∧ SameBytes s t

/-! ## Whole-machine rules: registers, stack, timers, modes (10_state.md) -/

/-- R21. A register changes only as a named destination of the instruction, and VF besides only where the instruction is one
of the six that write it as a side effect. -/
def Obligations.RegistersChangeOnlyAsDestination : Prop :=
  ∀ (i : Instr) (s t : State) (r : Nibble), exec i s = .next t → t.getV r ≠ s.getV r →
    namesDest i r = true ∨ (r = 0xF ∧ writesFlag i = true)

/-- R25, R26. No instruction but `CALL` writes a stack slot, none but `CALL` and `RET` changes SP. -/
def Obligations.OnlyCallAndRetUseStack : Prop :=
  ∀ (i : Instr) (s t : State), exec i s = .next t →
    (t.stack = s.stack ∨ ∃ nnn, i = .call nnn) ∧ (t.sp = s.sp ∨ (∃ nnn, i = .call nnn) ∨ (∃ u, i = .ret u))

/-- R24, R27, R28, R39. Of the instructions `LD DT, Vx` alone writes DT, `LD ST, Vx` alone ST, and `LD I`, `ADD I`, `LD F` and
the two block instructions alone I. -/
def Obligations.OnlyTheirLoadsWriteTimersAndIndex : Prop :=
  ∀ (i : Instr) (s t : State), exec i s = .next t →
    (t.dt = s.dt ∨ ∃ x, i = .ldDtVx x) ∧ (t.st = s.st ∨ ∃ x, i = .ldStVx x) ∧
    (t.i = s.i ∨ (∃ nnn, i = .ldI nnn) ∨ (∃ x, i = .addI x ∨ i = .ldF x ∨ i = .storeRegs x ∨ i = .loadRegs x))

/-- R30, R233. "The only instruction that suspends execution is `LD Vx, K`": another instruction leaves `Running` by a fault
alone, and no instruction answers anything but a next state. -/
def Obligations.OnlyKeyWaitSuspends : Prop :=
  ∀ (i : Instr) (s : State), s.mode = .running →
    ∃ t, exec i s = .next t ∧
      (t.mode = .running ∨ (t.mode = .waitingForKey ∧ ∃ x, i = .ldVxK x) ∨
        (t.mode = .halted ∧ ∃ c, c ≠ .none ∧ FaultEntry s t c (encode i)))

/-! ## Faults (60_exceptions.md) -/

/-- R222, R223, R224 (b). An instruction raises its own fault exactly in the states the rules name, and then the step's only
effects are those of fault entry, with the instruction's word and address recorded. -/
def Obligations.OwnFaultsAreExactlyThese : Prop :=
  ∀ (i : Instr) (s : State), s.mode = .running →
    ∃ t, exec i s = .next t ∧ (t.mode = .halted ↔ ownFault i s ≠ .none) ∧
      (ownFault i s ≠ .none → FaultEntry s t (ownFault i s) (encode i))

/-- R53, R224 (a), R229. Whenever an instruction step falls, in `Running` with `run` = 1, at a PC above 0xFFE, it raises
`MemoryOutOfBounds` with word 0x0000, before any decoding. -/
def Obligations.FetchOutOfBoundsFaults : Prop :=
  ∀ (s : State), s.nextEvent.1 = .instr → s.mode = .running → s.run = true → s.pc.toNat > 0xFFE →
    ∃ t, step s = .next t ∧ FaultEntry (afterEvent s) t .memoryOutOfBounds 0x0000

/-- R221. Whenever an instruction step falls, in `Running` with `run` = 1, that fetches a word no row of the opcode map matches,
it raises `UnimplementedOpcode` with that word and its address. -/
def Obligations.UnimplementedWordFaults : Prop :=
  ∀ (s : State) (w : Word), s.nextEvent.1 = .instr → s.mode = .running → s.run = true → s.pc.toNat ≤ 0xFFE →
    w = wordOfBytes (s.readByte s.pc.toNat) (s.readByte (s.pc.toNat + 1)) →
    (∀ r ∈ opcodeMap, r.selects w = false) →
    ∃ t, step s = .next t ∧ FaultEntry (afterEvent s) t .unimplementedOpcode w

/-- R227, R228. What can fall in `Halted`: a reset; a tick, which counts both timers down and does nothing else; a key event,
which does nothing; a load write (while `run` is 0), which writes its one byte; a change of `run`. All but the reset leave
every other piece of state as it is, the mode and the fault record among them. -/
def Obligations.HaltedIsTerminal : Prop :=
  ∀ (s t : State), s.mode = .halted → step s = .next t →
    (∃ rest, s.outside = .reset :: rest) ∨ TickLoadOrRun s t ∨ (∃ k, s.nextEvent.1 = .key k ∧ t = afterEvent s)

/-- Log entries 6 and 7, the model's own stops. `step` stops in two cases only: an instruction step is asked for in
`Halted`, or the host writes through the load port while `run` is 1. -/
def Obligations.StepStopsOnlyHere : Prop :=
  ∀ (s : State),
    (∀ f, step s = .fault f ↔ (s.mode = .halted ∧ s.nextEvent.1 = .instr ∧ f = .halted s.faultKind)) ∧
    (∀ r, step s = .refused r ↔ (s.run = true ∧ r = .loadWhileRunning ∧ ∃ a d rest, s.outside = .load a d :: rest))

/-! ## The other agents (60_exceptions.md R236, 70_reset_and_hazards.md) -/

/-- R236. Whenever a tick falls, given by the outside world's list or drawn, in every mode and whatever `run` is: both timers
fall by 1 unless 0; nothing else changes; `sound_active` is ST > 0. -/
def Obligations.TickCountsBothTimersDown : Prop :=
  ∀ (s : State), s.nextEvent.1 = .tick →
    ∃ t, step s = .next t ∧ t.dt.toNat = s.dt.toNat - 1 ∧ t.st.toNat = s.st.toNat - 1 ∧
      (t.soundActive = true ↔ t.st.toNat > 0) ∧ t = { afterEvent s with dt := t.dt, st := t.st } ∧ SameBytes s t

/-- R27, R28 and the source's property on timers (95_test_vectors.md E10): k ticks bring a timer from N to N - k and never
below 0. -/
def Obligations.TicksNeverGoBelowZero : Prop :=
  ∀ (k : Nat) (s : State), (State.tick^[k] s).dt.toNat = s.dt.toNat - k ∧ (State.tick^[k] s).st.toNat = s.st.toNat - k

/-- R38, R163, R261. The state after reset: all zero, `Running`, no fault, but PC = 0x200 and the glyph table at 0x000. -/
def Obligations.ResetValues : Prop :=
  let s := State.reset
  (∀ r, s.getV r = 0) ∧ s.i = 0 ∧ s.pc = 0x200 ∧ s.sp.val = 0 ∧ (∀ j : Fin 16, s.stack[j.val] = 0) ∧
  s.dt = 0 ∧ s.st = 0 ∧ s.soundActive = false ∧ s.mode = .running ∧ s.wx = 0 ∧
  s.faultKind = .none ∧ s.faultWord = 0 ∧ s.faultAddr = 0 ∧ s.cb.valid = false ∧ s.cb.kind = .clear ∧
  s.cb.x = 0 ∧ s.cb.y = 0 ∧ s.cb.n = 0 ∧ (∀ r : Fin 15, s.cb.row[r.val] = 0) ∧ (∀ R C, pixel s.fb R C = false) ∧
  (∀ a, 80 ≤ a → s.readByte a = 0) ∧
  ([0x00, 0x05, 0x0A, 0x0F, 0x14, 0x19, 0x1E, 0x23].map fun a => (List.range 5).map fun k => s.readByte (a + k)) =
    [[0xF0, 0x90, 0x90, 0x90, 0xF0], [0x20, 0x60, 0x20, 0x20, 0x70], [0xF0, 0x10, 0xF0, 0x80, 0xF0],
     [0xF0, 0x10, 0xF0, 0x10, 0xF0], [0x90, 0x90, 0xF0, 0x10, 0x10], [0xF0, 0x80, 0xF0, 0x10, 0xF0],
     [0xF0, 0x80, 0xF0, 0x90, 0xF0], [0xF0, 0x10, 0x20, 0x40, 0x40]] ∧
  ([0x28, 0x2D, 0x32, 0x37, 0x3C, 0x41, 0x46, 0x4B].map fun a => (List.range 5).map fun k => s.readByte (a + k)) =
    [[0xF0, 0x90, 0xF0, 0x90, 0xF0], [0xF0, 0x90, 0xF0, 0x10, 0xF0], [0xF0, 0x90, 0xF0, 0x90, 0x90],
     [0xE0, 0x90, 0xE0, 0x90, 0xE0], [0xF0, 0x80, 0x80, 0x80, 0xF0], [0xE0, 0x90, 0x90, 0x90, 0xE0],
     [0xF0, 0x80, 0xF0, 0x80, 0xF0], [0xF0, 0x80, 0xF0, 0x80, 0x80]]

/-- R260. A reset, from any state: every piece of the core's and the display's state at its reset value; the inputs and the
model's own lists of what the outside world has in store go on (log entry 15). -/
def Obligations.HostResetFromAnyState : Prop :=
  ∀ (s : State) (rest : List Event), s.outside = .reset :: rest →
    step s = .next { State.reset with run := s.run, outside := rest, keyIn := s.keyIn, rndIn := s.rndIn, draws := s.draws }

/-- R263, R264. A load write while `run` is 0: the byte at a is d, every other byte as before, nothing else changes. The host
that, from the state after reset, lowers `run`, writes an image that fits from 0x200 upward and raises `run` reaches the
launch state of the image: the state after reset but for memory, which holds the image from 0x200 and elsewhere what it
holds after reset. -/
def Obligations.LoadPortWritesAndLaunches : Prop :=
  (∀ (s : State) (a : Addr) (d : Byte) (rest : List Event), s.outside = .load a d :: rest → s.run = false →
    ∃ t, step s = .next t ∧ t.readByte a.toNat = d ∧ (∀ a', a' ≠ a.toNat → t.readByte a' = s.readByte a') ∧
      t = { s with mem := t.mem, outside := rest }) ∧
  ∀ (image : List Byte), image.length ≤ 3584 →
    stepsFor (image.length + 2) { State.reset with outside := launchScript image } = .next (launch image) ∧
    launch image = { State.reset with mem := (launch image).mem } ∧
    (∀ k, ∀ h : k < image.length, (launch image).readByte (0x200 + k) = image[k]) ∧
    (∀ a, a < 0x200 ∨ 0x200 + image.length ≤ a → (launch image).readByte a = State.reset.readByte a)

/-- R265, and log entry 7 for the first clause. `run` gates instruction steps only: an instruction step asked for in `Running`
with `run` = 0 answers the same state (the model's choice, log entry 7, DEDUCED: R265 says that none starts); setting `run`
changes no other state; a key wait is completed whatever `run` is. -/
def Obligations.RunGatesInstructionSteps : Prop :=
  ∀ (s : State) (rest : List Event),
    (s.outside = .instr :: rest → s.mode = .running → s.run = false → step s = .next { s with outside := rest }) ∧
    (∀ b, s.outside = .run b :: rest → step s = .next { s with run := b, outside := rest }) ∧
    (∀ k, s.outside = .key k :: rest → s.mode = .waitingForKey → ∃ t, step s = .next t ∧ t.mode = .running)

/-- R246, and log entry 7 for the last case. What can fall in `WaitingForKey`: a reset; a key event, which writes V[wx] = the
key's value and sets the mode to `Running`, nothing else; a tick, which counts both timers down; a load write (while `run`
is 0), which writes its one byte; a change of `run`; an instruction step asked for, which does nothing (the model's choice,
log entry 7, DEDUCED). So the wait is left by a key event or reset alone, and all state is retained but for those effects. -/
def Obligations.WaitIsLeftByKeyOrReset : Prop :=
  ∀ (s t : State), s.mode = .waitingForKey → step s = .next t →
    (∃ rest, s.outside = .reset :: rest) ∨
    (∃ k, s.nextEvent.1 = .key k ∧ (t.getV s.wx).toNat = k.toNat ∧ (∀ r, r ≠ s.wx → t.getV r = s.getV r) ∧
      t = { afterEvent s with v := t.v, mode := .running }) ∨
    TickLoadOrRun s t ∨ (s.nextEvent.1 = .instr ∧ t = afterEvent s)

/-! ## The step (40_control_flow.md R118) -/

/-- R118. Where the bytes at PC decode to i, in `Running` with `run` = 1, an instruction step is exec of i. It falls when the
outside world's list says so, or when that list is empty and no tick does; what falls with an empty list is the model's form
of R238's free interleaving (log entries 1 and 2). -/
def Obligations.StepRunsDecodedInstruction : Prop :=
  ∀ (s : State) (i : Instr), s.mode = .running → s.run = true → s.pc.toNat ≤ 0xFFE →
    decode (wordOfBytes (s.readByte s.pc.toNat) (s.readByte (s.pc.toNat + 1))) = .ok i →
    (∀ rest, s.outside = .instr :: rest → step s = exec i { s with outside := rest }) ∧
    (s.outside = [] → step s =
      if s.dt = 0 ∧ s.st = 0 then exec i s
      else if Config.tickFalls s.draws = true then .next (State.tick { s with draws := s.draws + 1 })
      else exec i { s with draws := s.draws + 1 })

/-! ## Encoding (30_encoding.md) -/

/-- R80, R86. Decoding the word of an instruction gives the instruction back, with every operand at every value; so does
decoding its two bytes in front of any others. -/
def Obligations.DecodeInvertsEncode : Prop :=
  ∀ (i : Instr) (rest : List Byte),
    decode (encode i) = .ok i ∧ decodeBytes (encodeBytes i ++ rest) = .ok (i, rest)

/-- R86. The other direction: a word that decodes is the word of its instruction, no bit lost. -/
def Obligations.EncodeInvertsDecode : Prop :=
  ∀ (w : Word) (i : Instr), decode w = .ok i → encode i = w

/-- R86. The decoder and the opcode map agree: a word a row selects decodes to what the row builds, a word no row selects is
unimplemented, and no word is selected by two rows. -/
def Obligations.DecoderAgreesWithOpcodeMap : Prop :=
  (∀ (w : Word), ∀ r ∈ opcodeMap, r.selects w = true → decode w = .ok (r.build w)) ∧
  (∀ (w : Word), (∀ r ∈ opcodeMap, r.selects w = false) → decode w = .error (.unimplementedOpcode w)) ∧
  (∀ (w : Word), opcodeMap.Pairwise fun r r' => ¬ (r.selects w = true ∧ r'.selects w = true))

/-- R90. The words that are unimplemented are exactly those of families 0x0, 0x8, 0xE and 0xF with another secondary key. -/
def Obligations.UnimplementedWordsAreExactlyThese : Prop :=
  ∀ (w : Word), decode w = .error (.unimplementedOpcode w) ↔
    (Field.family w = 0x0 ∧ Field.kk w ∉ [0xE0#8, 0xEE#8]) ∨
    (Field.family w = 0x8 ∧ Field.n w ∈ [0x8#4, 0x9#4, 0xA#4, 0xB#4, 0xC#4, 0xD#4, 0xF#4]) ∨
    (Field.family w = 0xE ∧ Field.kk w ∉ [0x9E#8, 0xA1#8]) ∨
    (Field.family w = 0xF ∧
      Field.kk w ∉ [0x07#8, 0x0A#8, 0x15#8, 0x18#8, 0x1E#8, 0x29#8, 0x33#8, 0x55#8, 0x65#8])

/-- R89. Ignored bits do not change what an instruction does, but for the word a `RET` fault records (R223): each of the
six forms has one effect whatever they are. -/
def Obligations.IgnoredBitsDoNotMatter : Prop :=
  ∀ (x y u u' : Nibble) (s : State),
    exec (.cls u) s = exec (.cls u') s ∧ exec (.seReg x y u) s = exec (.seReg x y u') s ∧
    exec (.sneReg x y u) s = exec (.sneReg x y u') s ∧ exec (.shr x u) s = exec (.shr x u') s ∧
    exec (.shl x u) s = exec (.shl x u') s ∧ (s.sp.val ≠ 0 → exec (.ret u) s = exec (.ret u') s)

/-- R85, R86, R89. A few words, among them the three the source itself shows, decode to what the spec says they stand for. -/
def Obligations.SpecWordsDecode : Prop :=
  decode 0x6005 = .ok (.ldByte 0 5) ∧ decode 0x7003 = .ok (.addByte 0 3) ∧ decode 0x2300 = .ok (.call 0x300) ∧
  decode 0x12A8 = .ok (.jp 0x2A8) ∧ decode 0x8127 = .ok (.subnReg 1 2) ∧ decode 0xD015 = .ok (.drw 0 1 5) ∧
  decode 0xF333 = .ok (.ldB 3) ∧ decode 0xE5A1 = .ok (.sknp 5) ∧ decode 0x05EE = .ok (.ret 5) ∧
  decode 0x0000 = .error (.unimplementedOpcode 0x0000)

/-! ## Invariants (10_state.md R40) -/

/-- R40 with R32, R33 and log entry 12. Every step keeps the invariant, from every state that has it. -/
def Obligations.EveryStepKeepsInvariant : Prop :=
  ∀ (s t : State), s.Inv → step s = .next t → t.Inv

/-- The invariant holds after reset. -/
def Obligations.InvariantHoldsAtReset : Prop := State.reset.Inv

/-- Log entry 12. Every step keeps the memory list in its canonical form, whatever the rest of the state. -/
def Obligations.EveryStepKeepsMemoryCanonical : Prop :=
  ∀ (s t : State), Memory.wf s.mem = true → step s = .next t → Memory.wf t.mem = true

/-! ## The end of a run (70_reset_and_hazards.md R267) -/

/-- R267 (c), with log entry 18 for the definition. Once the program has ended (PC holds the address of a `JP` to itself), an
instruction step changes nothing, and until the host resets or writes memory every step leaves it ended with V, I, PC, SP,
the stack, memory, the display and the rest of the state as they are: a tick changes DT and ST, the host may change `run`. -/
def Obligations.EndedProgramRests : Prop :=
  ∀ (s : State), s.ended = true →
    (s.nextEvent.1 = .instr → step s = .next (afterEvent s)) ∧
    ∀ t, step s = .next t →
      (∃ rest, s.outside = .reset :: rest) ∨ (∃ a d rest, s.outside = .load a d :: rest) ∨
      (t.ended = true ∧ t = { afterEvent s with dt := t.dt, st := t.st, run := t.run } ∧ SameBytes s t ∧
        (s.nextEvent.1 ≠ .tick → t.dt = s.dt ∧ t.st = s.st))
end

