-- ==== Sys2Proof/Laws/State.lean ====
section
/-! SUPPORT. One lemma per field per update of the state (spec/10_state.md), so that no proof unfolds a record update. -/

namespace Sys2Proof.Machine

variable (s : State)

/-! ## setV -/

@[simp] theorem State.setV_i (x : Nibble) (b : Byte) : (s.setV x b).i = s.i := rfl
@[simp] theorem State.setV_pc (x : Nibble) (b : Byte) : (s.setV x b).pc = s.pc := rfl
@[simp] theorem State.setV_sp (x : Nibble) (b : Byte) : (s.setV x b).sp = s.sp := rfl
@[simp] theorem State.setV_stack (x : Nibble) (b : Byte) : (s.setV x b).stack = s.stack := rfl
@[simp] theorem State.setV_dt (x : Nibble) (b : Byte) : (s.setV x b).dt = s.dt := rfl
@[simp] theorem State.setV_st (x : Nibble) (b : Byte) : (s.setV x b).st = s.st := rfl
@[simp] theorem State.setV_mem (x : Nibble) (b : Byte) : (s.setV x b).mem = s.mem := rfl
@[simp] theorem State.setV_mode (x : Nibble) (b : Byte) : (s.setV x b).mode = s.mode := rfl
@[simp] theorem State.setV_wx (x : Nibble) (b : Byte) : (s.setV x b).wx = s.wx := rfl
@[simp] theorem State.setV_faultKind (x : Nibble) (b : Byte) : (s.setV x b).faultKind = s.faultKind := rfl
@[simp] theorem State.setV_faultWord (x : Nibble) (b : Byte) : (s.setV x b).faultWord = s.faultWord := rfl
@[simp] theorem State.setV_faultAddr (x : Nibble) (b : Byte) : (s.setV x b).faultAddr = s.faultAddr := rfl
@[simp] theorem State.setV_cb (x : Nibble) (b : Byte) : (s.setV x b).cb = s.cb := rfl
@[simp] theorem State.setV_fb (x : Nibble) (b : Byte) : (s.setV x b).fb = s.fb := rfl
@[simp] theorem State.setV_run (x : Nibble) (b : Byte) : (s.setV x b).run = s.run := rfl
@[simp] theorem State.setV_outside (x : Nibble) (b : Byte) : (s.setV x b).outside = s.outside := rfl
@[simp] theorem State.setV_keyIn (x : Nibble) (b : Byte) : (s.setV x b).keyIn = s.keyIn := rfl
@[simp] theorem State.setV_rndIn (x : Nibble) (b : Byte) : (s.setV x b).rndIn = s.rndIn := rfl
@[simp] theorem State.setV_draws (x : Nibble) (b : Byte) : (s.setV x b).draws = s.draws := rfl
@[simp] theorem State.setV_readByte (x : Nibble) (b : Byte) (a : Nat) : (s.setV x b).readByte a = s.readByte a := rfl
@[simp] theorem State.setV_npc (x : Nibble) (b : Byte) : (s.setV x b).npc = s.npc := rfl

/-! ## setFlagThenV -/

@[simp] theorem State.setFlagThenV_i (f : Bool) (x : Nibble) (b : Byte) : (s.setFlagThenV f x b).i = s.i := rfl
@[simp] theorem State.setFlagThenV_pc (f : Bool) (x : Nibble) (b : Byte) : (s.setFlagThenV f x b).pc = s.pc := rfl
@[simp] theorem State.setFlagThenV_sp (f : Bool) (x : Nibble) (b : Byte) : (s.setFlagThenV f x b).sp = s.sp := rfl
@[simp] theorem State.setFlagThenV_stack (f : Bool) (x : Nibble) (b : Byte) : (s.setFlagThenV f x b).stack = s.stack := rfl
@[simp] theorem State.setFlagThenV_dt (f : Bool) (x : Nibble) (b : Byte) : (s.setFlagThenV f x b).dt = s.dt := rfl
@[simp] theorem State.setFlagThenV_st (f : Bool) (x : Nibble) (b : Byte) : (s.setFlagThenV f x b).st = s.st := rfl
@[simp] theorem State.setFlagThenV_mem (f : Bool) (x : Nibble) (b : Byte) : (s.setFlagThenV f x b).mem = s.mem := rfl
@[simp] theorem State.setFlagThenV_mode (f : Bool) (x : Nibble) (b : Byte) : (s.setFlagThenV f x b).mode = s.mode := rfl
@[simp] theorem State.setFlagThenV_wx (f : Bool) (x : Nibble) (b : Byte) : (s.setFlagThenV f x b).wx = s.wx := rfl
@[simp] theorem State.setFlagThenV_faultKind (f : Bool) (x : Nibble) (b : Byte) : (s.setFlagThenV f x b).faultKind = s.faultKind := rfl
@[simp] theorem State.setFlagThenV_faultWord (f : Bool) (x : Nibble) (b : Byte) : (s.setFlagThenV f x b).faultWord = s.faultWord := rfl
@[simp] theorem State.setFlagThenV_faultAddr (f : Bool) (x : Nibble) (b : Byte) : (s.setFlagThenV f x b).faultAddr = s.faultAddr := rfl
@[simp] theorem State.setFlagThenV_cb (f : Bool) (x : Nibble) (b : Byte) : (s.setFlagThenV f x b).cb = s.cb := rfl
@[simp] theorem State.setFlagThenV_fb (f : Bool) (x : Nibble) (b : Byte) : (s.setFlagThenV f x b).fb = s.fb := rfl
@[simp] theorem State.setFlagThenV_run (f : Bool) (x : Nibble) (b : Byte) : (s.setFlagThenV f x b).run = s.run := rfl
@[simp] theorem State.setFlagThenV_outside (f : Bool) (x : Nibble) (b : Byte) : (s.setFlagThenV f x b).outside = s.outside := rfl
@[simp] theorem State.setFlagThenV_keyIn (f : Bool) (x : Nibble) (b : Byte) : (s.setFlagThenV f x b).keyIn = s.keyIn := rfl
@[simp] theorem State.setFlagThenV_rndIn (f : Bool) (x : Nibble) (b : Byte) : (s.setFlagThenV f x b).rndIn = s.rndIn := rfl
@[simp] theorem State.setFlagThenV_draws (f : Bool) (x : Nibble) (b : Byte) : (s.setFlagThenV f x b).draws = s.draws := rfl
@[simp] theorem State.setFlagThenV_readByte (f : Bool) (x : Nibble) (b : Byte) (a : Nat) : (s.setFlagThenV f x b).readByte a = s.readByte a := rfl
@[simp] theorem State.setFlagThenV_npc (f : Bool) (x : Nibble) (b : Byte) : (s.setFlagThenV f x b).npc = s.npc := rfl

/-! ## advance -/

@[simp] theorem State.advance_v : s.advance.v = s.v := rfl
@[simp] theorem State.advance_i : s.advance.i = s.i := rfl
@[simp] theorem State.advance_pc : s.advance.pc = s.npc := rfl
@[simp] theorem State.advance_sp : s.advance.sp = s.sp := rfl
@[simp] theorem State.advance_stack : s.advance.stack = s.stack := rfl
@[simp] theorem State.advance_dt : s.advance.dt = s.dt := rfl
@[simp] theorem State.advance_st : s.advance.st = s.st := rfl
@[simp] theorem State.advance_mem : s.advance.mem = s.mem := rfl
@[simp] theorem State.advance_mode : s.advance.mode = s.mode := rfl
@[simp] theorem State.advance_wx : s.advance.wx = s.wx := rfl
@[simp] theorem State.advance_faultKind : s.advance.faultKind = s.faultKind := rfl
@[simp] theorem State.advance_faultWord : s.advance.faultWord = s.faultWord := rfl
@[simp] theorem State.advance_faultAddr : s.advance.faultAddr = s.faultAddr := rfl
@[simp] theorem State.advance_cb : s.advance.cb = s.cb := rfl
@[simp] theorem State.advance_fb : s.advance.fb = s.fb := rfl
@[simp] theorem State.advance_run : s.advance.run = s.run := rfl
@[simp] theorem State.advance_outside : s.advance.outside = s.outside := rfl
@[simp] theorem State.advance_keyIn : s.advance.keyIn = s.keyIn := rfl
@[simp] theorem State.advance_rndIn : s.advance.rndIn = s.rndIn := rfl
@[simp] theorem State.advance_draws : s.advance.draws = s.draws := rfl
@[simp] theorem State.advance_getV (y : Nibble) : s.advance.getV y = s.getV y := rfl
@[simp] theorem State.advance_readByte (a : Nat) : s.advance.readByte a = s.readByte a := rfl

/-! ## jumpTo -/

@[simp] theorem State.jumpTo_v (t : Word) : (s.jumpTo t).v = s.v := rfl
@[simp] theorem State.jumpTo_i (t : Word) : (s.jumpTo t).i = s.i := rfl
@[simp] theorem State.jumpTo_pc (t : Word) : (s.jumpTo t).pc = t := rfl
@[simp] theorem State.jumpTo_sp (t : Word) : (s.jumpTo t).sp = s.sp := rfl
@[simp] theorem State.jumpTo_stack (t : Word) : (s.jumpTo t).stack = s.stack := rfl
@[simp] theorem State.jumpTo_dt (t : Word) : (s.jumpTo t).dt = s.dt := rfl
@[simp] theorem State.jumpTo_st (t : Word) : (s.jumpTo t).st = s.st := rfl
@[simp] theorem State.jumpTo_mem (t : Word) : (s.jumpTo t).mem = s.mem := rfl
@[simp] theorem State.jumpTo_mode (t : Word) : (s.jumpTo t).mode = s.mode := rfl
@[simp] theorem State.jumpTo_wx (t : Word) : (s.jumpTo t).wx = s.wx := rfl
@[simp] theorem State.jumpTo_faultKind (t : Word) : (s.jumpTo t).faultKind = s.faultKind := rfl
@[simp] theorem State.jumpTo_faultWord (t : Word) : (s.jumpTo t).faultWord = s.faultWord := rfl
@[simp] theorem State.jumpTo_faultAddr (t : Word) : (s.jumpTo t).faultAddr = s.faultAddr := rfl
@[simp] theorem State.jumpTo_cb (t : Word) : (s.jumpTo t).cb = s.cb := rfl
@[simp] theorem State.jumpTo_fb (t : Word) : (s.jumpTo t).fb = s.fb := rfl
@[simp] theorem State.jumpTo_run (t : Word) : (s.jumpTo t).run = s.run := rfl
@[simp] theorem State.jumpTo_outside (t : Word) : (s.jumpTo t).outside = s.outside := rfl
@[simp] theorem State.jumpTo_keyIn (t : Word) : (s.jumpTo t).keyIn = s.keyIn := rfl
@[simp] theorem State.jumpTo_rndIn (t : Word) : (s.jumpTo t).rndIn = s.rndIn := rfl
@[simp] theorem State.jumpTo_draws (t : Word) : (s.jumpTo t).draws = s.draws := rfl
@[simp] theorem State.jumpTo_getV (t : Word) (y : Nibble) : (s.jumpTo t).getV y = s.getV y := rfl
@[simp] theorem State.jumpTo_readByte (t : Word) (a : Nat) : (s.jumpTo t).readByte a = s.readByte a := rfl

/-! ## skipIf -/

@[simp] theorem State.skipIf_v (c : Bool) : (s.skipIf c).v = s.v := rfl
@[simp] theorem State.skipIf_i (c : Bool) : (s.skipIf c).i = s.i := rfl
@[simp] theorem State.skipIf_pc (c : Bool) : (s.skipIf c).pc = if c then s.npc + 2 else s.npc := rfl
@[simp] theorem State.skipIf_sp (c : Bool) : (s.skipIf c).sp = s.sp := rfl
@[simp] theorem State.skipIf_stack (c : Bool) : (s.skipIf c).stack = s.stack := rfl
@[simp] theorem State.skipIf_dt (c : Bool) : (s.skipIf c).dt = s.dt := rfl
@[simp] theorem State.skipIf_st (c : Bool) : (s.skipIf c).st = s.st := rfl
@[simp] theorem State.skipIf_mem (c : Bool) : (s.skipIf c).mem = s.mem := rfl
@[simp] theorem State.skipIf_mode (c : Bool) : (s.skipIf c).mode = s.mode := rfl
@[simp] theorem State.skipIf_wx (c : Bool) : (s.skipIf c).wx = s.wx := rfl
@[simp] theorem State.skipIf_faultKind (c : Bool) : (s.skipIf c).faultKind = s.faultKind := rfl
@[simp] theorem State.skipIf_faultWord (c : Bool) : (s.skipIf c).faultWord = s.faultWord := rfl
@[simp] theorem State.skipIf_faultAddr (c : Bool) : (s.skipIf c).faultAddr = s.faultAddr := rfl
@[simp] theorem State.skipIf_cb (c : Bool) : (s.skipIf c).cb = s.cb := rfl
@[simp] theorem State.skipIf_fb (c : Bool) : (s.skipIf c).fb = s.fb := rfl
@[simp] theorem State.skipIf_run (c : Bool) : (s.skipIf c).run = s.run := rfl
@[simp] theorem State.skipIf_outside (c : Bool) : (s.skipIf c).outside = s.outside := rfl
@[simp] theorem State.skipIf_keyIn (c : Bool) : (s.skipIf c).keyIn = s.keyIn := rfl
@[simp] theorem State.skipIf_rndIn (c : Bool) : (s.skipIf c).rndIn = s.rndIn := rfl
@[simp] theorem State.skipIf_draws (c : Bool) : (s.skipIf c).draws = s.draws := rfl
@[simp] theorem State.skipIf_getV (c : Bool) (y : Nibble) : (s.skipIf c).getV y = s.getV y := rfl
@[simp] theorem State.skipIf_readByte (c : Bool) (a : Nat) : (s.skipIf c).readByte a = s.readByte a := rfl

/-! ## raise -/

@[simp] theorem State.raise_v (c : Cause) (w : Word) : (s.raise c w).v = s.v := rfl
@[simp] theorem State.raise_i (c : Cause) (w : Word) : (s.raise c w).i = s.i := rfl
@[simp] theorem State.raise_pc (c : Cause) (w : Word) : (s.raise c w).pc = s.pc := rfl
@[simp] theorem State.raise_sp (c : Cause) (w : Word) : (s.raise c w).sp = s.sp := rfl
@[simp] theorem State.raise_stack (c : Cause) (w : Word) : (s.raise c w).stack = s.stack := rfl
@[simp] theorem State.raise_dt (c : Cause) (w : Word) : (s.raise c w).dt = s.dt := rfl
@[simp] theorem State.raise_st (c : Cause) (w : Word) : (s.raise c w).st = s.st := rfl
@[simp] theorem State.raise_mem (c : Cause) (w : Word) : (s.raise c w).mem = s.mem := rfl
@[simp] theorem State.raise_mode (c : Cause) (w : Word) : (s.raise c w).mode = .halted := rfl
@[simp] theorem State.raise_wx (c : Cause) (w : Word) : (s.raise c w).wx = s.wx := rfl
@[simp] theorem State.raise_faultKind (c : Cause) (w : Word) : (s.raise c w).faultKind = c := rfl
@[simp] theorem State.raise_faultWord (c : Cause) (w : Word) : (s.raise c w).faultWord = w := rfl
@[simp] theorem State.raise_faultAddr (c : Cause) (w : Word) : (s.raise c w).faultAddr = s.pc := rfl
@[simp] theorem State.raise_cb (c : Cause) (w : Word) : (s.raise c w).cb = s.cb := rfl
@[simp] theorem State.raise_fb (c : Cause) (w : Word) : (s.raise c w).fb = s.fb := rfl
@[simp] theorem State.raise_run (c : Cause) (w : Word) : (s.raise c w).run = s.run := rfl
@[simp] theorem State.raise_outside (c : Cause) (w : Word) : (s.raise c w).outside = s.outside := rfl
@[simp] theorem State.raise_keyIn (c : Cause) (w : Word) : (s.raise c w).keyIn = s.keyIn := rfl
@[simp] theorem State.raise_rndIn (c : Cause) (w : Word) : (s.raise c w).rndIn = s.rndIn := rfl
@[simp] theorem State.raise_draws (c : Cause) (w : Word) : (s.raise c w).draws = s.draws := rfl
@[simp] theorem State.raise_getV (c : Cause) (w : Word) (y : Nibble) : (s.raise c w).getV y = s.getV y := rfl
@[simp] theorem State.raise_readByte (c : Cause) (w : Word) (a : Nat) : (s.raise c w).readByte a = s.readByte a := rfl
@[simp] theorem State.raise_npc (c : Cause) (w : Word) : (s.raise c w).npc = s.npc := rfl

/-! ## storeAtI -/

@[simp] theorem State.storeAtI_v (bs : List Byte) : (s.storeAtI bs).v = s.v := rfl
@[simp] theorem State.storeAtI_i (bs : List Byte) : (s.storeAtI bs).i = s.i := rfl
@[simp] theorem State.storeAtI_pc (bs : List Byte) : (s.storeAtI bs).pc = s.pc := rfl
@[simp] theorem State.storeAtI_sp (bs : List Byte) : (s.storeAtI bs).sp = s.sp := rfl
@[simp] theorem State.storeAtI_stack (bs : List Byte) : (s.storeAtI bs).stack = s.stack := rfl
@[simp] theorem State.storeAtI_dt (bs : List Byte) : (s.storeAtI bs).dt = s.dt := rfl
@[simp] theorem State.storeAtI_st (bs : List Byte) : (s.storeAtI bs).st = s.st := rfl
@[simp] theorem State.storeAtI_mem (bs : List Byte) : (s.storeAtI bs).mem = Memory.writeBytes s.mem s.i.toNat bs := rfl
@[simp] theorem State.storeAtI_mode (bs : List Byte) : (s.storeAtI bs).mode = s.mode := rfl
@[simp] theorem State.storeAtI_wx (bs : List Byte) : (s.storeAtI bs).wx = s.wx := rfl
@[simp] theorem State.storeAtI_faultKind (bs : List Byte) : (s.storeAtI bs).faultKind = s.faultKind := rfl
@[simp] theorem State.storeAtI_faultWord (bs : List Byte) : (s.storeAtI bs).faultWord = s.faultWord := rfl
@[simp] theorem State.storeAtI_faultAddr (bs : List Byte) : (s.storeAtI bs).faultAddr = s.faultAddr := rfl
@[simp] theorem State.storeAtI_cb (bs : List Byte) : (s.storeAtI bs).cb = s.cb := rfl
@[simp] theorem State.storeAtI_fb (bs : List Byte) : (s.storeAtI bs).fb = s.fb := rfl
@[simp] theorem State.storeAtI_run (bs : List Byte) : (s.storeAtI bs).run = s.run := rfl
@[simp] theorem State.storeAtI_outside (bs : List Byte) : (s.storeAtI bs).outside = s.outside := rfl
@[simp] theorem State.storeAtI_keyIn (bs : List Byte) : (s.storeAtI bs).keyIn = s.keyIn := rfl
@[simp] theorem State.storeAtI_rndIn (bs : List Byte) : (s.storeAtI bs).rndIn = s.rndIn := rfl
@[simp] theorem State.storeAtI_draws (bs : List Byte) : (s.storeAtI bs).draws = s.draws := rfl
@[simp] theorem State.storeAtI_getV (bs : List Byte) (y : Nibble) : (s.storeAtI bs).getV y = s.getV y := rfl
@[simp] theorem State.storeAtI_npc (bs : List Byte) : (s.storeAtI bs).npc = s.npc := rfl

/-! ## loadRegsAtI -/

@[simp] theorem State.loadRegsAtI_i (x : Nibble) : (s.loadRegsAtI x).i = s.i := rfl
@[simp] theorem State.loadRegsAtI_pc (x : Nibble) : (s.loadRegsAtI x).pc = s.pc := rfl
@[simp] theorem State.loadRegsAtI_sp (x : Nibble) : (s.loadRegsAtI x).sp = s.sp := rfl
@[simp] theorem State.loadRegsAtI_stack (x : Nibble) : (s.loadRegsAtI x).stack = s.stack := rfl
@[simp] theorem State.loadRegsAtI_dt (x : Nibble) : (s.loadRegsAtI x).dt = s.dt := rfl
@[simp] theorem State.loadRegsAtI_st (x : Nibble) : (s.loadRegsAtI x).st = s.st := rfl
@[simp] theorem State.loadRegsAtI_mem (x : Nibble) : (s.loadRegsAtI x).mem = s.mem := rfl
@[simp] theorem State.loadRegsAtI_mode (x : Nibble) : (s.loadRegsAtI x).mode = s.mode := rfl
@[simp] theorem State.loadRegsAtI_wx (x : Nibble) : (s.loadRegsAtI x).wx = s.wx := rfl
@[simp] theorem State.loadRegsAtI_faultKind (x : Nibble) : (s.loadRegsAtI x).faultKind = s.faultKind := rfl
@[simp] theorem State.loadRegsAtI_faultWord (x : Nibble) : (s.loadRegsAtI x).faultWord = s.faultWord := rfl
@[simp] theorem State.loadRegsAtI_faultAddr (x : Nibble) : (s.loadRegsAtI x).faultAddr = s.faultAddr := rfl
@[simp] theorem State.loadRegsAtI_cb (x : Nibble) : (s.loadRegsAtI x).cb = s.cb := rfl
@[simp] theorem State.loadRegsAtI_fb (x : Nibble) : (s.loadRegsAtI x).fb = s.fb := rfl
@[simp] theorem State.loadRegsAtI_run (x : Nibble) : (s.loadRegsAtI x).run = s.run := rfl
@[simp] theorem State.loadRegsAtI_outside (x : Nibble) : (s.loadRegsAtI x).outside = s.outside := rfl
@[simp] theorem State.loadRegsAtI_keyIn (x : Nibble) : (s.loadRegsAtI x).keyIn = s.keyIn := rfl
@[simp] theorem State.loadRegsAtI_rndIn (x : Nibble) : (s.loadRegsAtI x).rndIn = s.rndIn := rfl
@[simp] theorem State.loadRegsAtI_draws (x : Nibble) : (s.loadRegsAtI x).draws = s.draws := rfl
@[simp] theorem State.loadRegsAtI_readByte (x : Nibble) (a : Nat) : (s.loadRegsAtI x).readByte a = s.readByte a := rfl
@[simp] theorem State.loadRegsAtI_npc (x : Nibble) : (s.loadRegsAtI x).npc = s.npc := rfl

/-! ## requestClear -/

@[simp] theorem State.requestClear_v : s.requestClear.v = s.v := rfl
@[simp] theorem State.requestClear_i : s.requestClear.i = s.i := rfl
@[simp] theorem State.requestClear_pc : s.requestClear.pc = s.pc := rfl
@[simp] theorem State.requestClear_sp : s.requestClear.sp = s.sp := rfl
@[simp] theorem State.requestClear_stack : s.requestClear.stack = s.stack := rfl
@[simp] theorem State.requestClear_dt : s.requestClear.dt = s.dt := rfl
@[simp] theorem State.requestClear_st : s.requestClear.st = s.st := rfl
@[simp] theorem State.requestClear_mem : s.requestClear.mem = s.mem := rfl
@[simp] theorem State.requestClear_mode : s.requestClear.mode = s.mode := rfl
@[simp] theorem State.requestClear_wx : s.requestClear.wx = s.wx := rfl
@[simp] theorem State.requestClear_faultKind : s.requestClear.faultKind = s.faultKind := rfl
@[simp] theorem State.requestClear_faultWord : s.requestClear.faultWord = s.faultWord := rfl
@[simp] theorem State.requestClear_faultAddr : s.requestClear.faultAddr = s.faultAddr := rfl
@[simp] theorem State.requestClear_fb : s.requestClear.fb = s.fb := rfl
@[simp] theorem State.requestClear_run : s.requestClear.run = s.run := rfl
@[simp] theorem State.requestClear_outside : s.requestClear.outside = s.outside := rfl
@[simp] theorem State.requestClear_keyIn : s.requestClear.keyIn = s.keyIn := rfl
@[simp] theorem State.requestClear_rndIn : s.requestClear.rndIn = s.rndIn := rfl
@[simp] theorem State.requestClear_draws : s.requestClear.draws = s.draws := rfl
@[simp] theorem State.requestClear_getV (y : Nibble) : s.requestClear.getV y = s.getV y := rfl
@[simp] theorem State.requestClear_readByte (a : Nat) : s.requestClear.readByte a = s.readByte a := rfl
@[simp] theorem State.requestClear_npc : s.requestClear.npc = s.npc := rfl

/-! ## requestBlit -/

@[simp] theorem State.requestBlit_v (cx cy : Byte) (n : Nibble) : (s.requestBlit cx cy n).v = s.v := rfl
@[simp] theorem State.requestBlit_i (cx cy : Byte) (n : Nibble) : (s.requestBlit cx cy n).i = s.i := rfl
@[simp] theorem State.requestBlit_pc (cx cy : Byte) (n : Nibble) : (s.requestBlit cx cy n).pc = s.pc := rfl
@[simp] theorem State.requestBlit_sp (cx cy : Byte) (n : Nibble) : (s.requestBlit cx cy n).sp = s.sp := rfl
@[simp] theorem State.requestBlit_stack (cx cy : Byte) (n : Nibble) : (s.requestBlit cx cy n).stack = s.stack := rfl
@[simp] theorem State.requestBlit_dt (cx cy : Byte) (n : Nibble) : (s.requestBlit cx cy n).dt = s.dt := rfl
@[simp] theorem State.requestBlit_st (cx cy : Byte) (n : Nibble) : (s.requestBlit cx cy n).st = s.st := rfl
@[simp] theorem State.requestBlit_mem (cx cy : Byte) (n : Nibble) : (s.requestBlit cx cy n).mem = s.mem := rfl
@[simp] theorem State.requestBlit_mode (cx cy : Byte) (n : Nibble) : (s.requestBlit cx cy n).mode = s.mode := rfl
@[simp] theorem State.requestBlit_wx (cx cy : Byte) (n : Nibble) : (s.requestBlit cx cy n).wx = s.wx := rfl
@[simp] theorem State.requestBlit_faultKind (cx cy : Byte) (n : Nibble) : (s.requestBlit cx cy n).faultKind = s.faultKind := rfl
@[simp] theorem State.requestBlit_faultWord (cx cy : Byte) (n : Nibble) : (s.requestBlit cx cy n).faultWord = s.faultWord := rfl
@[simp] theorem State.requestBlit_faultAddr (cx cy : Byte) (n : Nibble) : (s.requestBlit cx cy n).faultAddr = s.faultAddr := rfl
@[simp] theorem State.requestBlit_fb (cx cy : Byte) (n : Nibble) : (s.requestBlit cx cy n).fb = s.fb := rfl
@[simp] theorem State.requestBlit_run (cx cy : Byte) (n : Nibble) : (s.requestBlit cx cy n).run = s.run := rfl
@[simp] theorem State.requestBlit_outside (cx cy : Byte) (n : Nibble) : (s.requestBlit cx cy n).outside = s.outside := rfl
@[simp] theorem State.requestBlit_keyIn (cx cy : Byte) (n : Nibble) : (s.requestBlit cx cy n).keyIn = s.keyIn := rfl
@[simp] theorem State.requestBlit_rndIn (cx cy : Byte) (n : Nibble) : (s.requestBlit cx cy n).rndIn = s.rndIn := rfl
@[simp] theorem State.requestBlit_draws (cx cy : Byte) (n : Nibble) : (s.requestBlit cx cy n).draws = s.draws := rfl
@[simp] theorem State.requestBlit_getV (cx cy : Byte) (n : Nibble) (y : Nibble) : (s.requestBlit cx cy n).getV y = s.getV y := rfl
@[simp] theorem State.requestBlit_readByte (cx cy : Byte) (n : Nibble) (a : Nat) : (s.requestBlit cx cy n).readByte a = s.readByte a := rfl
@[simp] theorem State.requestBlit_npc (cx cy : Byte) (n : Nibble) : (s.requestBlit cx cy n).npc = s.npc := rfl

/-! ## displayActs -/

@[simp] theorem State.displayActs_v : s.displayActs.v = s.v := rfl
@[simp] theorem State.displayActs_i : s.displayActs.i = s.i := rfl
@[simp] theorem State.displayActs_pc : s.displayActs.pc = s.pc := rfl
@[simp] theorem State.displayActs_sp : s.displayActs.sp = s.sp := rfl
@[simp] theorem State.displayActs_stack : s.displayActs.stack = s.stack := rfl
@[simp] theorem State.displayActs_dt : s.displayActs.dt = s.dt := rfl
@[simp] theorem State.displayActs_st : s.displayActs.st = s.st := rfl
@[simp] theorem State.displayActs_mem : s.displayActs.mem = s.mem := rfl
@[simp] theorem State.displayActs_mode : s.displayActs.mode = s.mode := rfl
@[simp] theorem State.displayActs_wx : s.displayActs.wx = s.wx := rfl
@[simp] theorem State.displayActs_faultKind : s.displayActs.faultKind = s.faultKind := rfl
@[simp] theorem State.displayActs_faultWord : s.displayActs.faultWord = s.faultWord := rfl
@[simp] theorem State.displayActs_faultAddr : s.displayActs.faultAddr = s.faultAddr := rfl
@[simp] theorem State.displayActs_run : s.displayActs.run = s.run := rfl
@[simp] theorem State.displayActs_outside : s.displayActs.outside = s.outside := rfl
@[simp] theorem State.displayActs_keyIn : s.displayActs.keyIn = s.keyIn := rfl
@[simp] theorem State.displayActs_rndIn : s.displayActs.rndIn = s.rndIn := rfl
@[simp] theorem State.displayActs_draws : s.displayActs.draws = s.draws := rfl
@[simp] theorem State.displayActs_getV (y : Nibble) : s.displayActs.getV y = s.getV y := rfl
@[simp] theorem State.displayActs_readByte (a : Nat) : s.displayActs.readByte a = s.readByte a := rfl
@[simp] theorem State.displayActs_npc : s.displayActs.npc = s.npc := rfl

/-! ## displayClear -/

@[simp] theorem State.displayClear_v : s.displayClear.v = s.v := rfl
@[simp] theorem State.displayClear_i : s.displayClear.i = s.i := rfl
@[simp] theorem State.displayClear_pc : s.displayClear.pc = s.pc := rfl
@[simp] theorem State.displayClear_sp : s.displayClear.sp = s.sp := rfl
@[simp] theorem State.displayClear_stack : s.displayClear.stack = s.stack := rfl
@[simp] theorem State.displayClear_dt : s.displayClear.dt = s.dt := rfl
@[simp] theorem State.displayClear_st : s.displayClear.st = s.st := rfl
@[simp] theorem State.displayClear_mem : s.displayClear.mem = s.mem := rfl
@[simp] theorem State.displayClear_mode : s.displayClear.mode = s.mode := rfl
@[simp] theorem State.displayClear_wx : s.displayClear.wx = s.wx := rfl
@[simp] theorem State.displayClear_faultKind : s.displayClear.faultKind = s.faultKind := rfl
@[simp] theorem State.displayClear_faultWord : s.displayClear.faultWord = s.faultWord := rfl
@[simp] theorem State.displayClear_faultAddr : s.displayClear.faultAddr = s.faultAddr := rfl
@[simp] theorem State.displayClear_fb : s.displayClear.fb = Vector.replicate 32 0 := rfl
@[simp] theorem State.displayClear_run : s.displayClear.run = s.run := rfl
@[simp] theorem State.displayClear_outside : s.displayClear.outside = s.outside := rfl
@[simp] theorem State.displayClear_keyIn : s.displayClear.keyIn = s.keyIn := rfl
@[simp] theorem State.displayClear_rndIn : s.displayClear.rndIn = s.rndIn := rfl
@[simp] theorem State.displayClear_draws : s.displayClear.draws = s.draws := rfl
@[simp] theorem State.displayClear_getV (y : Nibble) : s.displayClear.getV y = s.getV y := rfl
@[simp] theorem State.displayClear_readByte (a : Nat) : s.displayClear.readByte a = s.readByte a := rfl
@[simp] theorem State.displayClear_npc : s.displayClear.npc = s.npc := rfl

/-! ## tick -/

@[simp] theorem State.tick_v : s.tick.v = s.v := rfl
@[simp] theorem State.tick_i : s.tick.i = s.i := rfl
@[simp] theorem State.tick_pc : s.tick.pc = s.pc := rfl
@[simp] theorem State.tick_sp : s.tick.sp = s.sp := rfl
@[simp] theorem State.tick_stack : s.tick.stack = s.stack := rfl
@[simp] theorem State.tick_dt : s.tick.dt = countDown s.dt := rfl
@[simp] theorem State.tick_st : s.tick.st = countDown s.st := rfl
@[simp] theorem State.tick_mem : s.tick.mem = s.mem := rfl
@[simp] theorem State.tick_mode : s.tick.mode = s.mode := rfl
@[simp] theorem State.tick_wx : s.tick.wx = s.wx := rfl
@[simp] theorem State.tick_faultKind : s.tick.faultKind = s.faultKind := rfl
@[simp] theorem State.tick_faultWord : s.tick.faultWord = s.faultWord := rfl
@[simp] theorem State.tick_faultAddr : s.tick.faultAddr = s.faultAddr := rfl
@[simp] theorem State.tick_cb : s.tick.cb = s.cb := rfl
@[simp] theorem State.tick_fb : s.tick.fb = s.fb := rfl
@[simp] theorem State.tick_run : s.tick.run = s.run := rfl
@[simp] theorem State.tick_outside : s.tick.outside = s.outside := rfl
@[simp] theorem State.tick_keyIn : s.tick.keyIn = s.keyIn := rfl
@[simp] theorem State.tick_rndIn : s.tick.rndIn = s.rndIn := rfl
@[simp] theorem State.tick_draws : s.tick.draws = s.draws := rfl
@[simp] theorem State.tick_getV (y : Nibble) : s.tick.getV y = s.getV y := rfl
@[simp] theorem State.tick_readByte (a : Nat) : s.tick.readByte a = s.readByte a := rfl
@[simp] theorem State.tick_npc : s.tick.npc = s.npc := rfl

/-! ## hostLoad -/

@[simp] theorem State.hostLoad_v (a : Addr) (d : Byte) : (s.hostLoad a d).v = s.v := rfl
@[simp] theorem State.hostLoad_i (a : Addr) (d : Byte) : (s.hostLoad a d).i = s.i := rfl
@[simp] theorem State.hostLoad_pc (a : Addr) (d : Byte) : (s.hostLoad a d).pc = s.pc := rfl
@[simp] theorem State.hostLoad_sp (a : Addr) (d : Byte) : (s.hostLoad a d).sp = s.sp := rfl
@[simp] theorem State.hostLoad_stack (a : Addr) (d : Byte) : (s.hostLoad a d).stack = s.stack := rfl
@[simp] theorem State.hostLoad_dt (a : Addr) (d : Byte) : (s.hostLoad a d).dt = s.dt := rfl
@[simp] theorem State.hostLoad_st (a : Addr) (d : Byte) : (s.hostLoad a d).st = s.st := rfl
@[simp] theorem State.hostLoad_mem (a : Addr) (d : Byte) : (s.hostLoad a d).mem = Memory.write s.mem a.toNat d := rfl
@[simp] theorem State.hostLoad_mode (a : Addr) (d : Byte) : (s.hostLoad a d).mode = s.mode := rfl
@[simp] theorem State.hostLoad_wx (a : Addr) (d : Byte) : (s.hostLoad a d).wx = s.wx := rfl
@[simp] theorem State.hostLoad_faultKind (a : Addr) (d : Byte) : (s.hostLoad a d).faultKind = s.faultKind := rfl
@[simp] theorem State.hostLoad_faultWord (a : Addr) (d : Byte) : (s.hostLoad a d).faultWord = s.faultWord := rfl
@[simp] theorem State.hostLoad_faultAddr (a : Addr) (d : Byte) : (s.hostLoad a d).faultAddr = s.faultAddr := rfl
@[simp] theorem State.hostLoad_cb (a : Addr) (d : Byte) : (s.hostLoad a d).cb = s.cb := rfl
@[simp] theorem State.hostLoad_fb (a : Addr) (d : Byte) : (s.hostLoad a d).fb = s.fb := rfl
@[simp] theorem State.hostLoad_run (a : Addr) (d : Byte) : (s.hostLoad a d).run = s.run := rfl
@[simp] theorem State.hostLoad_outside (a : Addr) (d : Byte) : (s.hostLoad a d).outside = s.outside := rfl
@[simp] theorem State.hostLoad_keyIn (a : Addr) (d : Byte) : (s.hostLoad a d).keyIn = s.keyIn := rfl
@[simp] theorem State.hostLoad_rndIn (a : Addr) (d : Byte) : (s.hostLoad a d).rndIn = s.rndIn := rfl
@[simp] theorem State.hostLoad_draws (a : Addr) (d : Byte) : (s.hostLoad a d).draws = s.draws := rfl
@[simp] theorem State.hostLoad_getV (a : Addr) (d : Byte) (y : Nibble) : (s.hostLoad a d).getV y = s.getV y := rfl
@[simp] theorem State.hostLoad_npc (a : Addr) (d : Byte) : (s.hostLoad a d).npc = s.npc := rfl

/-! ## hostRun -/

@[simp] theorem State.hostRun_v (b : Bool) : (s.hostRun b).v = s.v := rfl
@[simp] theorem State.hostRun_i (b : Bool) : (s.hostRun b).i = s.i := rfl
@[simp] theorem State.hostRun_pc (b : Bool) : (s.hostRun b).pc = s.pc := rfl
@[simp] theorem State.hostRun_sp (b : Bool) : (s.hostRun b).sp = s.sp := rfl
@[simp] theorem State.hostRun_stack (b : Bool) : (s.hostRun b).stack = s.stack := rfl
@[simp] theorem State.hostRun_dt (b : Bool) : (s.hostRun b).dt = s.dt := rfl
@[simp] theorem State.hostRun_st (b : Bool) : (s.hostRun b).st = s.st := rfl
@[simp] theorem State.hostRun_mem (b : Bool) : (s.hostRun b).mem = s.mem := rfl
@[simp] theorem State.hostRun_mode (b : Bool) : (s.hostRun b).mode = s.mode := rfl
@[simp] theorem State.hostRun_wx (b : Bool) : (s.hostRun b).wx = s.wx := rfl
@[simp] theorem State.hostRun_faultKind (b : Bool) : (s.hostRun b).faultKind = s.faultKind := rfl
@[simp] theorem State.hostRun_faultWord (b : Bool) : (s.hostRun b).faultWord = s.faultWord := rfl
@[simp] theorem State.hostRun_faultAddr (b : Bool) : (s.hostRun b).faultAddr = s.faultAddr := rfl
@[simp] theorem State.hostRun_cb (b : Bool) : (s.hostRun b).cb = s.cb := rfl
@[simp] theorem State.hostRun_fb (b : Bool) : (s.hostRun b).fb = s.fb := rfl
@[simp] theorem State.hostRun_run (b : Bool) : (s.hostRun b).run = b := rfl
@[simp] theorem State.hostRun_outside (b : Bool) : (s.hostRun b).outside = s.outside := rfl
@[simp] theorem State.hostRun_keyIn (b : Bool) : (s.hostRun b).keyIn = s.keyIn := rfl
@[simp] theorem State.hostRun_rndIn (b : Bool) : (s.hostRun b).rndIn = s.rndIn := rfl
@[simp] theorem State.hostRun_draws (b : Bool) : (s.hostRun b).draws = s.draws := rfl
@[simp] theorem State.hostRun_getV (b : Bool) (y : Nibble) : (s.hostRun b).getV y = s.getV y := rfl
@[simp] theorem State.hostRun_readByte (b : Bool) (a : Nat) : (s.hostRun b).readByte a = s.readByte a := rfl
@[simp] theorem State.hostRun_npc (b : Bool) : (s.hostRun b).npc = s.npc := rfl

/-! ## placeWord -/

@[simp] theorem State.placeWord_v (bs : List Byte) : (s.placeWord bs).v = s.v := rfl
@[simp] theorem State.placeWord_i (bs : List Byte) : (s.placeWord bs).i = s.i := rfl
@[simp] theorem State.placeWord_pc (bs : List Byte) : (s.placeWord bs).pc = s.pc := rfl
@[simp] theorem State.placeWord_sp (bs : List Byte) : (s.placeWord bs).sp = s.sp := rfl
@[simp] theorem State.placeWord_stack (bs : List Byte) : (s.placeWord bs).stack = s.stack := rfl
@[simp] theorem State.placeWord_dt (bs : List Byte) : (s.placeWord bs).dt = s.dt := rfl
@[simp] theorem State.placeWord_st (bs : List Byte) : (s.placeWord bs).st = s.st := rfl
@[simp] theorem State.placeWord_mem (bs : List Byte) : (s.placeWord bs).mem = Memory.writeBytes s.mem s.pc.toNat bs := rfl
@[simp] theorem State.placeWord_mode (bs : List Byte) : (s.placeWord bs).mode = s.mode := rfl
@[simp] theorem State.placeWord_wx (bs : List Byte) : (s.placeWord bs).wx = s.wx := rfl
@[simp] theorem State.placeWord_faultKind (bs : List Byte) : (s.placeWord bs).faultKind = s.faultKind := rfl
@[simp] theorem State.placeWord_faultWord (bs : List Byte) : (s.placeWord bs).faultWord = s.faultWord := rfl
@[simp] theorem State.placeWord_faultAddr (bs : List Byte) : (s.placeWord bs).faultAddr = s.faultAddr := rfl
@[simp] theorem State.placeWord_cb (bs : List Byte) : (s.placeWord bs).cb = s.cb := rfl
@[simp] theorem State.placeWord_fb (bs : List Byte) : (s.placeWord bs).fb = s.fb := rfl
@[simp] theorem State.placeWord_run (bs : List Byte) : (s.placeWord bs).run = s.run := rfl
@[simp] theorem State.placeWord_outside (bs : List Byte) : (s.placeWord bs).outside = s.outside := rfl
@[simp] theorem State.placeWord_keyIn (bs : List Byte) : (s.placeWord bs).keyIn = s.keyIn := rfl
@[simp] theorem State.placeWord_rndIn (bs : List Byte) : (s.placeWord bs).rndIn = s.rndIn := rfl
@[simp] theorem State.placeWord_draws (bs : List Byte) : (s.placeWord bs).draws = s.draws := rfl
@[simp] theorem State.placeWord_getV (bs : List Byte) (y : Nibble) : (s.placeWord bs).getV y = s.getV y := rfl
@[simp] theorem State.placeWord_npc (bs : List Byte) : (s.placeWord bs).npc = s.npc := rfl

/-! ## afterKeySample -/

@[simp] theorem State.afterKeySample_v : s.afterKeySample.v = s.v := by
  unfold State.afterKeySample; split <;> rfl
@[simp] theorem State.afterKeySample_i : s.afterKeySample.i = s.i := by
  unfold State.afterKeySample; split <;> rfl
@[simp] theorem State.afterKeySample_pc : s.afterKeySample.pc = s.pc := by
  unfold State.afterKeySample; split <;> rfl
@[simp] theorem State.afterKeySample_sp : s.afterKeySample.sp = s.sp := by
  unfold State.afterKeySample; split <;> rfl
@[simp] theorem State.afterKeySample_stack : s.afterKeySample.stack = s.stack := by
  unfold State.afterKeySample; split <;> rfl
@[simp] theorem State.afterKeySample_dt : s.afterKeySample.dt = s.dt := by
  unfold State.afterKeySample; split <;> rfl
@[simp] theorem State.afterKeySample_st : s.afterKeySample.st = s.st := by
  unfold State.afterKeySample; split <;> rfl
@[simp] theorem State.afterKeySample_mem : s.afterKeySample.mem = s.mem := by
  unfold State.afterKeySample; split <;> rfl
@[simp] theorem State.afterKeySample_mode : s.afterKeySample.mode = s.mode := by
  unfold State.afterKeySample; split <;> rfl
@[simp] theorem State.afterKeySample_wx : s.afterKeySample.wx = s.wx := by
  unfold State.afterKeySample; split <;> rfl
@[simp] theorem State.afterKeySample_faultKind : s.afterKeySample.faultKind = s.faultKind := by
  unfold State.afterKeySample; split <;> rfl
@[simp] theorem State.afterKeySample_faultWord : s.afterKeySample.faultWord = s.faultWord := by
  unfold State.afterKeySample; split <;> rfl
@[simp] theorem State.afterKeySample_faultAddr : s.afterKeySample.faultAddr = s.faultAddr := by
  unfold State.afterKeySample; split <;> rfl
@[simp] theorem State.afterKeySample_cb : s.afterKeySample.cb = s.cb := by
  unfold State.afterKeySample; split <;> rfl
@[simp] theorem State.afterKeySample_fb : s.afterKeySample.fb = s.fb := by
  unfold State.afterKeySample; split <;> rfl
@[simp] theorem State.afterKeySample_run : s.afterKeySample.run = s.run := by
  unfold State.afterKeySample; split <;> rfl
@[simp] theorem State.afterKeySample_outside : s.afterKeySample.outside = s.outside := by
  unfold State.afterKeySample; split <;> rfl
@[simp] theorem State.afterKeySample_rndIn : s.afterKeySample.rndIn = s.rndIn := by
  unfold State.afterKeySample; split <;> rfl
@[simp] theorem State.afterKeySample_getV (y : Nibble) : s.afterKeySample.getV y = s.getV y := by
  unfold State.afterKeySample; split <;> rfl
@[simp] theorem State.afterKeySample_readByte (a : Nat) : s.afterKeySample.readByte a = s.readByte a := by
  unfold State.afterKeySample; split <;> rfl
@[simp] theorem State.afterKeySample_npc : s.afterKeySample.npc = s.npc := by
  unfold State.afterKeySample; split <;> rfl

/-! ## afterRndSample -/

@[simp] theorem State.afterRndSample_v : s.afterRndSample.v = s.v := by
  unfold State.afterRndSample; split <;> rfl
@[simp] theorem State.afterRndSample_i : s.afterRndSample.i = s.i := by
  unfold State.afterRndSample; split <;> rfl
@[simp] theorem State.afterRndSample_pc : s.afterRndSample.pc = s.pc := by
  unfold State.afterRndSample; split <;> rfl
@[simp] theorem State.afterRndSample_sp : s.afterRndSample.sp = s.sp := by
  unfold State.afterRndSample; split <;> rfl
@[simp] theorem State.afterRndSample_stack : s.afterRndSample.stack = s.stack := by
  unfold State.afterRndSample; split <;> rfl
@[simp] theorem State.afterRndSample_dt : s.afterRndSample.dt = s.dt := by
  unfold State.afterRndSample; split <;> rfl
@[simp] theorem State.afterRndSample_st : s.afterRndSample.st = s.st := by
  unfold State.afterRndSample; split <;> rfl
@[simp] theorem State.afterRndSample_mem : s.afterRndSample.mem = s.mem := by
  unfold State.afterRndSample; split <;> rfl
@[simp] theorem State.afterRndSample_mode : s.afterRndSample.mode = s.mode := by
  unfold State.afterRndSample; split <;> rfl
@[simp] theorem State.afterRndSample_wx : s.afterRndSample.wx = s.wx := by
  unfold State.afterRndSample; split <;> rfl
@[simp] theorem State.afterRndSample_faultKind : s.afterRndSample.faultKind = s.faultKind := by
  unfold State.afterRndSample; split <;> rfl
@[simp] theorem State.afterRndSample_faultWord : s.afterRndSample.faultWord = s.faultWord := by
  unfold State.afterRndSample; split <;> rfl
@[simp] theorem State.afterRndSample_faultAddr : s.afterRndSample.faultAddr = s.faultAddr := by
  unfold State.afterRndSample; split <;> rfl
@[simp] theorem State.afterRndSample_cb : s.afterRndSample.cb = s.cb := by
  unfold State.afterRndSample; split <;> rfl
@[simp] theorem State.afterRndSample_fb : s.afterRndSample.fb = s.fb := by
  unfold State.afterRndSample; split <;> rfl
@[simp] theorem State.afterRndSample_run : s.afterRndSample.run = s.run := by
  unfold State.afterRndSample; split <;> rfl
@[simp] theorem State.afterRndSample_outside : s.afterRndSample.outside = s.outside := by
  unfold State.afterRndSample; split <;> rfl
@[simp] theorem State.afterRndSample_keyIn : s.afterRndSample.keyIn = s.keyIn := by
  unfold State.afterRndSample; split <;> rfl
@[simp] theorem State.afterRndSample_getV (y : Nibble) : s.afterRndSample.getV y = s.getV y := by
  unfold State.afterRndSample; split <;> rfl
@[simp] theorem State.afterRndSample_readByte (a : Nat) : s.afterRndSample.readByte a = s.readByte a := by
  unfold State.afterRndSample; split <;> rfl
@[simp] theorem State.afterRndSample_npc : s.afterRndSample.npc = s.npc := by
  unfold State.afterRndSample; split <;> rfl

end Sys2Proof.Machine
end

