-- ==== Sys2Proof/Laws/Display.lean ====
section
/-! SUPPORT. What the display operations do, once for each (spec/43_display.md R182 to R187). -/

namespace Sys2Proof.Machine

/-- The pixels a fold over some sprite columns sets: those it had, and those of a set sprite bit among the columns. -/
theorem spriteMask_fold (cx b : Byte) (l : List Nat) (m : BitVec 64) (C : Nat) (hC : C < 64) :
    (l.foldl (fun m c => if b.getLsbD (7 - c) then m ||| BitVec.twoPow 64 ((cx.toNat + c) % 64) else m) m).getLsbD C =
      (m.getLsbD C || l.any fun c => b.getLsbD (7 - c) && decide ((cx.toNat + c) % 64 = C)) := by
  induction l generalizing m with
  | nil => simp
  | cons c l ih =>
    rw [List.foldl_cons, ih]
    by_cases hb : b.getLsbD (7 - c)
    · simp [hb, hC, Bool.or_assoc, eq_comm]
    · simp [hb]

/-- The sprite touches column C of its row exactly where some bit 7 - c is set and C = (cx + c) mod 64 (R186). -/
theorem spriteMask_getLsbD (cx b : Byte) (C : Nat) (hC : C < 64) :
    (spriteMask cx b).getLsbD C = true ↔ ∃ c < 8, b.getLsbD (7 - c) = true ∧ (cx.toNat + c) % 64 = C := by
  rw [spriteMask, spriteMask_fold _ _ _ _ _ hC]
  simp

/-- The rows of the request `DRW` makes are the n bytes at I, whatever the buffer held (R33, R181). -/
theorem State.requestBlit_rows (s : State) (cx cy : Byte) (n : Nibble) :
    (s.requestBlit cx cy n).cb.rows = (List.range n.toNat).map fun r => s.readByte (s.i.toNat + r) := by
  have hn : n.toNat < 16 := n.isLt
  apply List.ext_getElem
  · simp [CommandBuffer.rows, State.requestBlit]; omega
  · intro k h1 h2
    simp only [List.length_map, List.length_range] at h2
    simp [CommandBuffer.rows, State.requestBlit, h2]

/-- `DisplayClear()`: every pixel 0; the buffer holds a CLEAR request that is no longer valid (R182, R185). -/
theorem State.displayClear_eq (s : State) :
    s.displayClear =
      { s with fb := Vector.replicate 32 0, cb := { s.cb with valid := false, kind := .clear } } := rfl

/-- `DisplayBlit`: the display changed by the rows at I, and the request in the buffer no longer valid (R183, R186). -/
theorem State.displayBlit_state (s : State) (cx cy : Byte) (n : Nibble) :
    (s.displayBlit cx cy n).1 =
      { s with
        fb := blitRows s.fb cx cy.toNat ((List.range n.toNat).map fun r => s.readByte (s.i.toNat + r))
        cb := { (s.requestBlit cx cy n).cb with valid := false } } := by
  rw [← State.requestBlit_rows s cx cy n]; rfl

/-- The collision bit `DisplayBlit` answers, of the display before the command (R187). -/
theorem State.displayBlit_answer (s : State) (cx cy : Byte) (n : Nibble) :
    (s.displayBlit cx cy n).2 =
      collides s.fb cx cy.toNat ((List.range n.toNat).map fun r => s.readByte (s.i.toNat + r)) := by
  rw [← State.requestBlit_rows s cx cy n]; rfl

/-- A pixel after one row is XORed in. -/
theorem pixel_set_row (fb : Vector (BitVec 64) 32) (k : Nat) (hk : k < 32) (m : BitVec 64) (r : Fin 32) (c : Fin 64) :
    pixel (fb.set k m hk) r c = if k = r.val then m.getLsbD c.val else pixel fb r c := by
  simp only [pixel, Vector.getElem_set]; split <;> rfl

/-! ## BLIT and its collision answer, pixel by pixel (R186, R187) -/

/-- A set bit of one of the sprite's rows falls on the pixel at row R and column C. -/
def rowsCover (cx : Byte) (cy : Nat) (rows : List Byte) (R : Fin 32) (C : Fin 64) : Prop :=
  ∃ k, ∃ h : k < rows.length, (cy + k) % 32 = R.val ∧ (spriteMask cx rows[k]).getLsbD C.val = true

theorem rowsCover_cons (cx : Byte) (cy : Nat) (b : Byte) (rows : List Byte) (R : Fin 32) (C : Fin 64) :
    rowsCover cx cy (b :: rows) R C ↔
      (cy % 32 = R.val ∧ (spriteMask cx b).getLsbD C.val = true) ∨ rowsCover cx (cy + 1) rows R C := by
  constructor
  · rintro ⟨k, h, h1, h2⟩
    cases k with
    | zero => left; simpa using ⟨h1, h2⟩
    | succ k => right; exact ⟨k, by simpa using h, by rw [← h1]; congr 1; omega, by simpa using h2⟩
  · rintro (⟨h1, h2⟩ | ⟨k, h, h1, h2⟩)
    · exact ⟨0, by simp, by simpa using h1, by simpa using h2⟩
    · exact ⟨k + 1, by simpa using h, by rw [← h1]; congr 1; omega, by simpa using h2⟩

open Classical in
/-- Fewer than 32 rows: a pixel is flipped exactly where the sprite covers it (R186). -/
theorem pixel_blitRows (fb : Vector (BitVec 64) 32) (cx : Byte) (cy : Nat) (rows : List Byte) (hl : rows.length ≤ 31)
    (R : Fin 32) (C : Fin 64) :
    pixel (blitRows fb cx cy rows) R C = (pixel fb R C ^^ decide (rowsCover cx cy rows R C)) := by
  induction rows generalizing fb cy with
  | nil => simp [blitRows, rowsCover]
  | cons b rows ih =>
    simp only [List.length_cons] at hl
    rw [blitRows, ih _ _ (by omega), pixel_set_row]
    simp only [rowsCover_cons]
    have hd : cy % 32 = R.val → ¬ rowsCover cx (cy + 1) rows R C := by
      rintro h ⟨k, hk, h1, _⟩; omega
    by_cases h : cy % 32 = R.val
    · simp only [h, if_true, hd h, decide_false, Bool.xor_false, true_and, or_false, BitVec.getLsbD_xor, pixel,
        Bool.decide_eq_true]
    · simp [h]

/-- The collision answer: the sprite covers a pixel that is 1 (R187). -/
theorem collides_iff (fb : Vector (BitVec 64) 32) (cx : Byte) (cy : Nat) (rows : List Byte) :
    collides fb cx cy rows = true ↔ ∃ R C, rowsCover cx cy rows R C ∧ pixel fb R C = true := by
  induction rows generalizing cy with
  | nil => simp [collides, rowsCover]
  | cons b rows ih =>
    rw [collides, Bool.or_eq_true, ih, decide_eq_true_iff]
    simp only [rowsCover_cons]
    constructor
    · rintro (h | ⟨R, C, h1, h2⟩)
      · by_contra hc
        apply h
        apply BitVec.eq_of_getLsbD_eq
        intro i hi
        push Not at hc
        have := hc ⟨cy % 32, by omega⟩ ⟨i, hi⟩
        rw [BitVec.getLsbD_and, show BitVec.getLsbD (0 : BitVec 64) i = false by simp]
        simp only [true_and, pixel] at this
        by_cases hm : (spriteMask cx b).getLsbD i = true
        · have := this (.inl hm)
          simp_all
        · simp_all
      · exact ⟨R, C, .inr h1, h2⟩
    · rintro ⟨R, C, (⟨h1, h2⟩ | h1), h3⟩
      · left
        intro h
        have := congrArg (fun v => v.getLsbD C.val) h
        simp only [BitVec.getLsbD_and, h1, h2, Bool.and_true] at this
        simp [pixel] at h3
        simp_all
      · exact .inr ⟨R, C, h1, h3⟩

/-- Of the sprite at I, the rows cover what R186 says the sprite covers. -/
theorem rowsCover_sprite (s : State) (cx cy : Byte) (n : Nibble) (R : Fin 32) (C : Fin 64) :
    rowsCover cx cy.toNat ((List.range n.toNat).map fun r => s.readByte (s.i.toNat + r)) R C ↔
      SpriteCovers s cx cy n R C := by
  constructor
  · rintro ⟨k, h, h1, h2⟩
    simp only [List.length_map, List.length_range] at h
    rw [spriteMask_getLsbD _ _ _ C.isLt] at h2
    obtain ⟨c, hc, h3, h4⟩ := h2
    exact ⟨k, h, c, hc, by simpa using h3, h1, h4⟩
  · rintro ⟨k, h, c, hc, h3, h1, h4⟩
    exact ⟨k, by simpa using h, h1, (spriteMask_getLsbD _ _ _ C.isLt).2 ⟨c, hc, by simpa using h3, h4⟩⟩

end Sys2Proof.Machine
end

