-- ==== Sys2Proof/Laws/Encoding.lean ====
section
/-! SUPPORT. Fields of laid-out words, words rebuilt from their fields, and masks nibble by nibble (30_encoding.md R81, R82,
R86). -/

namespace Sys2Proof

/-! ## The value of a laid-out word -/

theorem append_toNat {m n : Nat} (a : BitVec m) (b : BitVec n) : (a ++ b).toNat = a.toNat * 2 ^ n + b.toNat := by
  rw [BitVec.toNat_append, ← Nat.shiftLeft_add_eq_or_of_lt b.isLt, Nat.shiftLeft_eq]

theorem formatA_toNat (f : Nibble) (nnn : Addr) : (formatA f nnn).toNat = f.toNat * 4096 + nnn.toNat := by
  rw [formatA, append_toNat]; omega

theorem formatXK_toNat (f x : Nibble) (kk : Byte) :
    (formatXK f x kk).toNat = f.toNat * 4096 + x.toNat * 256 + kk.toNat := by
  rw [formatXK, append_toNat, append_toNat]; omega

theorem formatXY_toNat (f x y n : Nibble) :
    (formatXY f x y n).toNat = f.toNat * 4096 + x.toNat * 256 + y.toNat * 16 + n.toNat := by
  rw [formatXY, append_toNat, append_toNat, append_toNat]; omega

/-! ## The value of a field (R81) -/

theorem Field.family_toNat (w : Word) : (Field.family w).toNat = w.toNat / 4096 := by
  have := w.isLt
  simp only [Field.family, BitVec.extractLsb'_toNat, Nat.shiftRight_eq_div_pow]; omega

theorem Field.x_toNat (w : Word) : (Field.x w).toNat = w.toNat / 256 % 16 := by
  simp only [Field.x, BitVec.extractLsb'_toNat, Nat.shiftRight_eq_div_pow]

theorem Field.y_toNat (w : Word) : (Field.y w).toNat = w.toNat / 16 % 16 := by
  simp only [Field.y, BitVec.extractLsb'_toNat, Nat.shiftRight_eq_div_pow]

theorem Field.n_toNat (w : Word) : (Field.n w).toNat = w.toNat % 16 := by
  simp only [Field.n, BitVec.extractLsb'_toNat, Nat.shiftRight_eq_div_pow]; omega

theorem Field.kk_toNat (w : Word) : (Field.kk w).toNat = w.toNat % 256 := by
  simp only [Field.kk, BitVec.extractLsb'_toNat, Nat.shiftRight_eq_div_pow]; omega

theorem Field.nnn_toNat (w : Word) : (Field.nnn w).toNat = w.toNat % 4096 := by
  simp only [Field.nnn, BitVec.extractLsb'_toNat, Nat.shiftRight_eq_div_pow]; omega

/-! ## The fields of a laid-out word (R81, R82) -/

@[simp] theorem Field.family_formatA (f : Nibble) (nnn : Addr) : Field.family (formatA f nnn) = f := by
  apply BitVec.eq_of_toNat_eq; rw [Field.family_toNat, formatA_toNat]; omega

@[simp] theorem Field.nnn_formatA (f : Nibble) (nnn : Addr) : Field.nnn (formatA f nnn) = nnn := by
  apply BitVec.eq_of_toNat_eq; rw [Field.nnn_toNat, formatA_toNat]; omega

@[simp] theorem Field.family_formatXK (f x : Nibble) (kk : Byte) : Field.family (formatXK f x kk) = f := by
  apply BitVec.eq_of_toNat_eq; rw [Field.family_toNat, formatXK_toNat]; omega

@[simp] theorem Field.x_formatXK (f x : Nibble) (kk : Byte) : Field.x (formatXK f x kk) = x := by
  apply BitVec.eq_of_toNat_eq; rw [Field.x_toNat, formatXK_toNat]; omega

@[simp] theorem Field.kk_formatXK (f x : Nibble) (kk : Byte) : Field.kk (formatXK f x kk) = kk := by
  apply BitVec.eq_of_toNat_eq; rw [Field.kk_toNat, formatXK_toNat]; omega

@[simp] theorem Field.family_formatXY (f x y n : Nibble) : Field.family (formatXY f x y n) = f := by
  apply BitVec.eq_of_toNat_eq; rw [Field.family_toNat, formatXY_toNat]; omega

@[simp] theorem Field.x_formatXY (f x y n : Nibble) : Field.x (formatXY f x y n) = x := by
  apply BitVec.eq_of_toNat_eq; rw [Field.x_toNat, formatXY_toNat]; omega

@[simp] theorem Field.y_formatXY (f x y n : Nibble) : Field.y (formatXY f x y n) = y := by
  apply BitVec.eq_of_toNat_eq; rw [Field.y_toNat, formatXY_toNat]; omega

@[simp] theorem Field.n_formatXY (f x y n : Nibble) : Field.n (formatXY f x y n) = n := by
  apply BitVec.eq_of_toNat_eq; rw [Field.n_toNat, formatXY_toNat]; omega

/-! ## A word rebuilt from its fields -/

theorem formatA_fields (w : Word) : formatA (Field.family w) (Field.nnn w) = w := by
  apply BitVec.eq_of_toNat_eq; rw [formatA_toNat, Field.family_toNat, Field.nnn_toNat]; omega

theorem formatXK_fields (w : Word) : formatXK (Field.family w) (Field.x w) (Field.kk w) = w := by
  apply BitVec.eq_of_toNat_eq
  rw [formatXK_toNat, Field.family_toNat, Field.x_toNat, Field.kk_toNat]; omega

theorem formatXY_fields (w : Word) : formatXY (Field.family w) (Field.x w) (Field.y w) (Field.n w) = w := by
  apply BitVec.eq_of_toNat_eq
  rw [formatXY_toNat, Field.family_toNat, Field.x_toNat, Field.y_toNat, Field.n_toNat]; omega

/-- The byte kk is y above n: `kk = y || n` (R81). -/
theorem Field.kk_eq_append (w : Word) : Field.kk w = Field.y w ++ Field.n w := by
  apply BitVec.eq_of_toNat_eq; rw [append_toNat, Field.kk_toNat, Field.y_toNat, Field.n_toNat]; omega

/-! ## Masks, nibble by nibble (R86) -/

theorem append_and {m n : Nat} (a c : BitVec m) (b d : BitVec n) : (a ++ b) &&& (c ++ d) = (a &&& c) ++ (b &&& d) := by
  ext i hi
  simp only [BitVec.getElem_and, BitVec.getElem_append]
  split <;> rfl

theorem formatXY_and (f x y n g p q r : Nibble) :
    formatXY f x y n &&& formatXY g p q r = formatXY (f &&& g) (x &&& p) (y &&& q) (n &&& r) := by
  exact (append_and (m := 4 + 4 + 4) (n := 4) ..).trans (by rw [append_and, append_and]; rfl)

theorem formatXY_inj {f x y n g p q r : Nibble} :
    formatXY f x y n = formatXY g p q r ↔ f = g ∧ x = p ∧ y = q ∧ n = r := by
  constructor
  · intro h
    have hf := congrArg Field.family h
    have hx := congrArg Field.x h
    have hy := congrArg Field.y h
    have hn := congrArg Field.n h
    simp only [Field.family_formatXY, Field.x_formatXY, Field.y_formatXY, Field.n_formatXY] at hf hx hy hn
    exact ⟨hf, hx, hy, hn⟩
  · rintro ⟨rfl, rfl, rfl, rfl⟩; rfl

theorem formatXK_and (f x g p : Nibble) (kk q : Byte) :
    formatXK f x kk &&& formatXK g p q = formatXK (f &&& g) (x &&& p) (kk &&& q) := by
  exact (append_and (m := 4 + 4) (n := 8) ..).trans (by rw [append_and]; rfl)

theorem formatXK_inj {f x g p : Nibble} {kk q : Byte} : formatXK f x kk = formatXK g p q ↔ f = g ∧ x = p ∧ kk = q := by
  constructor
  · intro h
    have hf := congrArg Field.family h
    have hx := congrArg Field.x h
    have hk := congrArg Field.kk h
    simp only [Field.family_formatXK, Field.x_formatXK, Field.kk_formatXK] at hf hx hk
    exact ⟨hf, hx, hk⟩
  · rintro ⟨rfl, rfl, rfl⟩; rfl

theorem nibble_and_ones (a : Nibble) : a &&& 15#4 = a := BitVec.and_allOnes

theorem byte_and_ones (a : Byte) : a &&& 255#8 = a := BitVec.and_allOnes

/-- The mask 0xF000 keys on the family alone (R86). -/
theorem mask_family (w : Word) (f : Nibble) : w &&& 0xF000 = formatXY f 0 0 0 ↔ Field.family w = f := by
  conv_lhs => rw [← formatXY_fields w, show (0xF000 : Word) = formatXY 0xF 0 0 0 from rfl, formatXY_and, formatXY_inj]
  simp [nibble_and_ones]

/-- The mask 0xF00F keys on the family and n (R86). -/
theorem mask_family_n (w : Word) (f n : Nibble) :
    w &&& 0xF00F = formatXY f 0 0 n ↔ Field.family w = f ∧ Field.n w = n := by
  conv_lhs => rw [← formatXY_fields w, show (0xF00F : Word) = formatXY 0xF 0 0 0xF from rfl, formatXY_and, formatXY_inj]
  simp [nibble_and_ones]

/-- The mask 0xF0FF keys on the family and kk (R86). -/
theorem mask_family_kk (w : Word) (f : Nibble) (kk : Byte) :
    w &&& 0xF0FF = formatXK f 0 kk ↔ Field.family w = f ∧ Field.kk w = kk := by
  conv_lhs => rw [← formatXK_fields w, show (0xF0FF : Word) = formatXK 0xF 0 0xFF from rfl, formatXK_and, formatXK_inj]
  simp [nibble_and_ones, byte_and_ones]

/-- The bytes of an instruction put together are its word (R54). -/
theorem wordOfBytes_split (w : Word) : wordOfBytes (w.extractLsb' 8 8) (w.extractLsb' 0 8) = w := by
  apply BitVec.eq_of_toNat_eq
  rw [wordOfBytes, append_toNat]
  simp only [BitVec.extractLsb'_toNat, Nat.shiftRight_eq_div_pow]; omega

end Sys2Proof
end

