-- ==== Sys2Proof/Laws/Memory.lean ====
section
/-! SUPPORT. The memory laws: what a read gives after a write, and that every memory operation keeps the canonical form
(spec/20_memory.md R58, R61; log entry 12). The read laws hold for every list, canonical or not. -/

namespace Sys2Proof.Machine

/-! ## Reads after writes (R58) -/

theorem Memory.erase_cons (c : Host.Cell) (rest : List Host.Cell) (a : Nat) :
    Memory.erase (c :: rest) a = if c.1 = a then Memory.erase rest a else c :: Memory.erase rest a := by
  by_cases h : c.1 = a <;> simp [Memory.erase, h]

theorem Memory.read_erase (m : List Host.Cell) (a a' : Nat) :
    Memory.read (Memory.erase m a) a' = if a' = a then resetByte a else Memory.read m a' := by
  induction m with
  | nil => by_cases h : a' = a <;> simp [Memory.erase, Memory.read, h]
  | cons c rest ih =>
    obtain ⟨k, v⟩ := c
    by_cases hk : k = a
    · subst hk
      by_cases h : a' = k
      · subst h; simpa [Memory.erase_cons] using ih
      · simp [Memory.erase_cons, Memory.read, ih, h, Ne.symm h]
    · by_cases hka : k = a'
      · subst hka; simp [Memory.erase_cons, Memory.read, hk]
      · simp [Memory.erase_cons, Memory.read, hk, hka, ih]

theorem Memory.read_insert (m : List Host.Cell) (a a' : Nat) (b : Byte) (h : Memory.erase m a = m) :
    Memory.read (Memory.insert m a b) a' = if a' = a then b else Memory.read m a' := by
  induction m with
  | nil =>
    by_cases ha : a' = a
    · simp [Memory.insert, Memory.read, ha]
    · simp [Memory.insert, Memory.read, ha, Ne.symm ha]
  | cons c rest ih =>
    obtain ⟨k, v⟩ := c
    have hk : k ≠ a := (List.filter_eq_self.1 h (k, v) List.mem_cons_self |> of_decide_eq_true)
    have hrest : Memory.erase rest a = rest :=
      List.filter_eq_self.2 fun c hc => List.filter_eq_self.1 h c (List.mem_cons_of_mem _ hc)
    by_cases hlt : a < k
    · by_cases ha : a' = a
      · simp [Memory.insert, Memory.read, hlt, ha]
      · simp [Memory.insert, Memory.read, hlt, ha, Ne.symm ha]
    · by_cases hka : k = a'
      · subst hka; simp [Memory.insert, Memory.read, hlt, hk]
      · simp [Memory.insert, Memory.read, hlt, hka, ih hrest]

theorem Memory.erase_erase (m : List Host.Cell) (a : Nat) : Memory.erase (Memory.erase m a) a = Memory.erase m a := by
  simp [Memory.erase, List.filter_filter]

/-- A read after a write: the byte written at its address, the old byte everywhere else (R58). -/
theorem Memory.read_write (m : List Host.Cell) (a a' : Nat) (b : Byte) :
    Memory.read (Memory.write m a b) a' = if a' = a then b else Memory.read m a' := by
  unfold Memory.write
  split
  · rename_i h; rw [Memory.read_erase, h]
  · rw [Memory.read_insert _ _ _ _ (Memory.erase_erase m a), Memory.read_erase]
    split <;> rfl

@[simp] theorem Memory.read_write_self (m : List Host.Cell) (a : Nat) (b : Byte) :
    Memory.read (Memory.write m a b) a = b := by rw [Memory.read_write, if_pos rfl]

theorem Memory.read_write_ne (m : List Host.Cell) {a a' : Nat} (b : Byte) (h : a' ≠ a) :
    Memory.read (Memory.write m a b) a' = Memory.read m a' := by rw [Memory.read_write, if_neg h]

/-- A read after a store of several bytes leaves every address outside them alone (R59). -/
theorem Memory.read_writeBytes_outside (m : List Host.Cell) (a : Nat) (bs : List Byte) (a' : Nat)
    (h : a' < a ∨ a + bs.length ≤ a') : Memory.read (Memory.writeBytes m a bs) a' = Memory.read m a' := by
  induction bs generalizing m a with
  | nil => rfl
  | cons b bs ih =>
    simp only [List.length_cons] at h
    rw [Memory.writeBytes, ih _ _ (by omega), Memory.read_write_ne _ _ (by omega)]

/-- A read after a store of several bytes gives the k-th of them at the k-th address (R57, R59). -/
theorem Memory.read_writeBytes_inside (m : List Host.Cell) (a : Nat) (bs : List Byte) (k : Nat) (h : k < bs.length) :
    Memory.read (Memory.writeBytes m a bs) (a + k) = bs[k] := by
  induction bs generalizing m a k with
  | nil => simp at h
  | cons b bs ih =>
    cases k with
    | zero => rw [Memory.writeBytes, Memory.read_writeBytes_outside _ _ _ _ (by omega)]; simp
    | succ k =>
      have := ih (Memory.write m a b) (a + 1) k (by simpa using h)
      rw [show a + (k + 1) = a + 1 + k by omega]
      simpa [Memory.writeBytes] using this

/-! ## The canonical form -/

theorem Memory.wf_iff (m : List Host.Cell) :
    Memory.wf m = true ↔ (∀ c ∈ m, c.1 < Config.memSize ∧ c.2 ≠ resetByte c.1) ∧ m.Pairwise fun c d => c.1 < d.1 := by
  have hr : Memory.rising m = true ↔ m.Pairwise fun c d => c.1 < d.1 := by
    induction m with
    | nil => simp [Memory.rising]
    | cons c rest ih => simp [Memory.rising, ih]
  simp [Memory.wf, Memory.cellsOk, hr]

theorem Memory.wf_nil : Memory.wf [] = true := rfl

theorem Memory.wf_erase {m : List Host.Cell} (a : Nat) (h : Memory.wf m = true) :
    Memory.wf (Memory.erase m a) = true := by
  rw [Memory.wf_iff] at h ⊢
  exact ⟨fun c hc => h.1 c (List.mem_of_mem_filter hc), h.2.filter _⟩

theorem Memory.mem_insert {m : List Host.Cell} {a : Nat} {b : Byte} {c : Host.Cell} :
    c ∈ Memory.insert m a b ↔ c = (a, b) ∨ c ∈ m := by
  induction m with
  | nil => simp [Memory.insert]
  | cons d rest ih =>
    by_cases h : a < d.1
    · simp [Memory.insert, h]
    · simp only [Memory.insert, h, if_false, List.mem_cons, ih]; tauto

theorem Memory.wf_insert {m : List Host.Cell} {a : Nat} {b : Byte} (h : Memory.wf m = true)
    (ha : a < Config.memSize) (hb : b ≠ resetByte a) (hne : ∀ c ∈ m, c.1 ≠ a) :
    Memory.wf (Memory.insert m a b) = true := by
  rw [Memory.wf_iff] at h ⊢
  refine ⟨fun c hc => ?_, ?_⟩
  · rcases Memory.mem_insert.1 hc with rfl | hc
    · exact ⟨ha, hb⟩
    · exact h.1 c hc
  · have hp := h.2
    clear h
    induction m with
    | nil => simp [Memory.insert]
    | cons d rest ih =>
      have hrest := List.pairwise_cons.1 hp
      by_cases hlt : a < d.1
      · simp only [Memory.insert, hlt, if_true, List.pairwise_cons]
        refine ⟨fun c hc => ?_, hrest⟩
        rcases List.mem_cons.1 hc with rfl | hc
        · exact hlt
        · exact hlt.trans (hrest.1 c hc)
      · simp only [Memory.insert, hlt, if_false, List.pairwise_cons]
        refine ⟨fun c hc => ?_, ih (fun c hc => hne c (List.mem_cons_of_mem _ hc)) hrest.2⟩
        rcases Memory.mem_insert.1 hc with rfl | hc
        · have := hne d List.mem_cons_self
          omega
        · exact hrest.1 c hc

/-- A write inside the address space keeps the canonical form. -/
theorem Memory.wf_write {m : List Host.Cell} {a : Nat} (b : Byte) (h : Memory.wf m = true) (ha : a < Config.memSize) :
    Memory.wf (Memory.write m a b) = true := by
  unfold Memory.write
  split
  · exact Memory.wf_erase a h
  · rename_i hb
    refine Memory.wf_insert (Memory.wf_erase a h) ha hb fun c hc => ?_
    simpa [Memory.erase] using (List.mem_filter.1 hc).2

/-- A store of several bytes inside the address space keeps the canonical form. -/
theorem Memory.wf_writeBytes {m : List Host.Cell} {a : Nat} {bs : List Byte} (h : Memory.wf m = true)
    (ha : a + bs.length ≤ Config.memSize) : Memory.wf (Memory.writeBytes m a bs) = true := by
  induction bs generalizing m a with
  | nil => exact h
  | cons b bs ih =>
    simp only [List.length_cons] at ha
    exact ih (Memory.wf_write b h (by omega)) (by omega)

/-! ## The same through the state's reads -/

theorem State.readByte_storeAtI_outside (s : State) (bs : List Byte) (a : Nat)
    (h : a < s.i.toNat ∨ s.i.toNat + bs.length ≤ a) : (s.storeAtI bs).readByte a = s.readByte a :=
  Memory.read_writeBytes_outside _ _ _ _ h

theorem State.readByte_storeAtI_inside (s : State) (bs : List Byte) (k : Nat) (h : k < bs.length) :
    (s.storeAtI bs).readByte (s.i.toNat + k) = bs[k] :=
  Memory.read_writeBytes_inside _ _ _ _ h

theorem State.inBounds_iff (s : State) (last : Nat) : s.inBounds last = true ↔ s.i.toNat + last ≤ 0xFFF := by
  rw [State.inBounds, decide_eq_true_iff]; rfl

end Sys2Proof.Machine
end

