-- ==== Sys2Proof/Laws/Registers.lean ====
section
/-! SUPPORT. What register, stack and sampling operations do, once for each (spec/10_state.md R20 to R26, 41_alu.md R142). -/

namespace Sys2Proof.Machine

/-! ## Registers -/

/-- A read after a write of a register. -/
@[simp] theorem State.getV_setV (s : State) (x y : Nibble) (b : Byte) :
    (s.setV x b).getV y = if y = x then b else s.getV y := by
  simp only [State.getV, State.setV, Vector.getElem_set, BitVec.toNat_inj, eq_comm]

/-- A flag and a result written: the result in Vx, the flag in VF where that is another register (R142). -/
@[simp] theorem State.getV_setFlagThenV (s : State) (f : Bool) (x y : Nibble) (b : Byte) :
    (s.setFlagThenV f x b).getV y = if y = x then b else if y = flagReg then flagByte f else s.getV y := by
  simp only [State.setFlagThenV, State.getV_setV]

/-- Registers V0 to Vx loaded from memory at I, the others kept (R166). -/
theorem State.getV_loadRegsAtI (s : State) (x y : Nibble) :
    (s.loadRegsAtI x).getV y =
      if y.toNat ≤ x.toNat then s.readByte (s.i.toNat + y.toNat) else s.getV y := by
  simp [State.getV, State.loadRegsAtI]

/-- Two register files that read alike are equal. -/
theorem State.v_ext {s t : State} (h : ∀ y, s.getV y = t.getV y) : s.v = t.v := by
  ext i hi
  have := h (BitVec.ofNat 4 i)
  simp only [State.getV, BitVec.toNat_ofNat, Nat.mod_eq_of_lt hi] at this
  rw [this]

theorem State.regsUpTo_length (s : State) (x : Nibble) : (s.regsUpTo x).length = x.toNat + 1 := by
  simp [State.regsUpTo]; omega

/-- The k-th register value of V0 to Vx is V[k]. -/
theorem State.regsUpTo_getElem (s : State) (x : Nibble) (k : Nibble) (h : k.toNat < (s.regsUpTo x).length) :
    (s.regsUpTo x)[k.toNat] = s.getV k := by
  simp [State.regsUpTo, State.getV]

theorem decimalDigits_length (b : Byte) : (decimalDigits b).length = 3 := rfl

/-! ## Flags -/

theorem flagByte_toNat (c : Bool) : (flagByte c).toNat = if c then 1 else 0 := by cases c <;> rfl

/-! ## The stack (R25, R26) -/

/-- A push answers exactly where a slot is left. -/
theorem State.push_eq_some (s : State) (w : Word) (h : s.sp.val < 16) :
    s.push w = some { s with stack := s.stack.set s.sp.val w h, sp := ⟨s.sp.val + 1, by omega⟩ } := by
  simp [State.push, h]

theorem State.push_eq_none (s : State) (w : Word) (h : s.sp.val = 16) : s.push w = none := by simp [State.push, h]

/-- A pop answers exactly where an address is on the stack. -/
theorem State.pop_eq_some (s : State) (h : 0 < s.sp.val) :
    s.pop = some (s.stack[s.sp.val - 1]'(by omega), { s with sp := ⟨s.sp.val - 1, by omega⟩ }) := by
  unfold State.pop; rw [dif_pos h]

theorem State.pop_eq_none (s : State) (h : s.sp.val = 0) : s.pop = none := by simp [State.pop, h]

/-! ## Sampled inputs -/

theorem State.keySample_nil (s : State) (h : s.keyIn = []) : s.keySample = Config.keyLevels s.draws := by
  simp [State.keySample, h]

theorem State.keySample_cons (s : State) {l : BitVec 16} {rest : List (BitVec 16)} (h : s.keyIn = l :: rest) :
    s.keySample = l := by simp [State.keySample, h]

theorem State.rndSample_nil (s : State) (h : s.rndIn = []) : s.rndSample = Config.randomByte s.draws := by
  simp [State.rndSample, h]

theorem State.rndSample_cons (s : State) {r : Byte} {rest : List Byte} (h : s.rndIn = r :: rest) :
    s.rndSample = r := by simp [State.rndSample, h]

/-! ## Timers and key events -/

theorem countDown_toNat (t : Byte) : (countDown t).toNat = t.toNat - 1 := by
  unfold countDown
  split
  · rename_i h; subst h; rfl
  · rename_i h
    have h0 : t.toNat ≠ 0 := fun e => h (BitVec.eq_of_toNat_eq (by simpa using e))
    rw [BitVec.toNat_sub]
    have := t.isLt
    simp; omega

theorem State.keyEvent_waiting (s : State) (k : Nibble) (h : s.mode = .waitingForKey) :
    s.keyEvent k = { s.setV s.wx (k.zeroExtend 8) with mode := .running } := by simp [State.keyEvent, h]

theorem State.keyEvent_dropped (s : State) (k : Nibble) (h : s.mode ≠ .waitingForKey) : s.keyEvent k = s := by
  unfold State.keyEvent; split <;> simp_all

end Sys2Proof.Machine
end

