-- ==== Sys2Proof/Laws/Step.lean ====
section
/-! SUPPORT. What a step can do, said once (spec/40_control_flow.md R118, 60_exceptions.md R229, R234). -/

namespace Sys2Proof.Machine

/-! ## What falls next -/

/-- An event of the outside world's list falls next. -/
theorem State.nextEvent_cons (s : State) {e : Event} {rest : List Event} (h : s.outside = e :: rest) :
    s.nextEvent = (e, { s with outside := rest }) := by simp [State.nextEvent, h]

/-- Taking the next event changes the outside world's list and the count of free values at most. -/
theorem State.nextEvent_frame (s : State) :
    s.nextEvent.2 = { s with outside := s.nextEvent.2.outside, draws := s.nextEvent.2.draws } := by
  unfold State.nextEvent
  split
  · rfl
  · unfold State.freeEvent
    repeat' split
    all_goals rfl

@[simp] theorem State.nextEvent_mode (s : State) : s.nextEvent.2.mode = s.mode := by rw [State.nextEvent_frame]
@[simp] theorem State.nextEvent_run (s : State) : s.nextEvent.2.run = s.run := by rw [State.nextEvent_frame]
@[simp] theorem State.nextEvent_mem (s : State) : s.nextEvent.2.mem = s.mem := by rw [State.nextEvent_frame]
@[simp] theorem State.nextEvent_faultKind (s : State) : s.nextEvent.2.faultKind = s.faultKind := by
  rw [State.nextEvent_frame]

/-- A free step is an instruction step, a tick or a key event, never an action of the host (log entry 6). -/
theorem State.freeEvent_kind (s : State) :
    s.freeEvent.1 = .instr ∨ s.freeEvent.1 = .tick ∨ ∃ k, s.freeEvent.1 = .key k := by
  unfold State.freeEvent
  repeat' split
  all_goals simp

/-- What the host does comes from the outside world's list alone (log entry 6). -/
theorem State.outside_of_nextEvent {s : State} {e : Event} (h : s.nextEvent.1 = e) (hi : e ≠ .instr) (ht : e ≠ .tick)
    (hk : ∀ k, e ≠ .key k) : ∃ rest, s.outside = e :: rest := by
  subst h
  unfold State.nextEvent at *
  cases ho : s.outside with
  | cons e rest => exact ⟨rest, rfl⟩
  | nil =>
    simp only [ho] at hi ht hk
    rcases s.freeEvent_kind with h | h | ⟨k, h⟩
    · exact absurd h hi
    · exact absurd h ht
    · exact absurd h (hk k)

/-- In `Running` with both timers 0 and nothing from outside, an instruction step falls next and no free value is taken. -/
theorem State.nextEvent_quiet (s : State) (ho : s.outside = []) (hm : s.mode = .running) (hd : s.dt = 0) (hs : s.st = 0) :
    s.nextEvent = (.instr, s) := by
  simp [State.nextEvent, ho, State.freeEvent, hm, State.timersIdle, hd, hs]

/-! ## The fetch -/

theorem State.fetch_eq_none (s : State) : s.fetch = none ↔ s.pc.toNat > 0xFFE := by
  unfold State.fetch; split <;> simp_all

theorem State.fetch_eq_some (s : State) (w : Word) :
    s.fetch = some w ↔ s.pc.toNat ≤ 0xFFE ∧ s.readByte s.pc.toNat ++ s.readByte (s.pc.toNat + 1) = w := by
  unfold State.fetch; split <;> simp_all

/-! ## The instruction step -/

theorem decode_error (w : Word) (e : DecodeError) (h : decode w = .error e) : decodeOpt w = none := by
  unfold decode at h; split at h <;> simp_all

theorem decode_ok_iff (w : Word) (i : Instr) : decode w = .ok i ↔ decodeOpt w = some i := by
  unfold decode; split <;> simp_all

/-- An enabled instruction step whose word decodes runs that instruction's meaning (R118). -/
theorem instrStep_exec (s : State) (i : Instr) (hm : s.mode = .running) (hr : s.run = true) {w : Word}
    (hf : s.fetch = some w) (hd : decode w = .ok i) : instrStep s = exec i s := by
  simp [instrStep, State.instrEnabled, hm, hr, hf, hd]

/-- An enabled instruction step whose fetch leaves memory ends in fault entry with word 0 (R53, R229). -/
theorem instrStep_unfetchable (s : State) (hm : s.mode = .running) (hr : s.run = true) (hf : s.fetch = none) :
    instrStep s = .next (s.raise .memoryOutOfBounds 0x0000) := by
  simp [instrStep, State.instrEnabled, hm, hr, hf]

/-- An enabled instruction step whose word does not decode ends in fault entry with that word (R90, R221). -/
theorem instrStep_undecoded (s : State) (hm : s.mode = .running) (hr : s.run = true) {w : Word} (hf : s.fetch = some w)
    (hd : decodeOpt w = none) : instrStep s = .next (s.raise .unimplementedOpcode w) := by
  simp [instrStep, State.instrEnabled, hm, hr, hf, decode, hd]

/-- The step of an event of the outside world's list. -/
theorem step_cons (s : State) {e : Event} {rest : List Event} (h : s.outside = e :: rest) :
    step s = eventStep e { s with outside := rest } := by rw [step, State.nextEvent_cons s h]

/-- What an instruction step can do, whatever the state (R118, R229). -/
theorem instrStep_cases (s : State) :
    (s.mode = .running ∧ s.run = true ∧
      ((s.fetch = none ∧ instrStep s = .next (s.raise .memoryOutOfBounds 0x0000)) ∨
       (∃ w, s.fetch = some w ∧ decodeOpt w = none ∧ instrStep s = .next (s.raise .unimplementedOpcode w)) ∨
       (∃ w i, s.fetch = some w ∧ decode w = .ok i ∧ instrStep s = exec i s))) ∨
    (s.mode = .running ∧ s.run = false ∧ instrStep s = .next s) ∨
    (s.mode = .waitingForKey ∧ instrStep s = .next s) ∨
    (s.mode = .halted ∧ instrStep s = .fault (.halted s.faultKind)) := by
  cases hm : s.mode
  case waitingForKey => simp [instrStep, State.instrEnabled, disabledStep, hm]
  case halted => simp [instrStep, State.instrEnabled, disabledStep, hm]
  case running =>
    cases hr : s.run
    · simp [instrStep, State.instrEnabled, disabledStep, hm, hr]
    · refine .inl ⟨rfl, rfl, ?_⟩
      cases hf : s.fetch with
      | none => simp [instrStep, State.instrEnabled, hm, hr, hf]
      | some w =>
        cases hd : decode w with
        | error e =>
          exact .inr (.inl ⟨w, rfl, decode_error w e hd, by simp [instrStep, State.instrEnabled, hm, hr, hf, hd]⟩)
        | ok i => exact .inr (.inr ⟨w, i, rfl, hd, instrStep_exec s i hm hr hf hd⟩)

/-- What a step that answers a next state has done: one of the atomic steps of R234, on the state without the event. -/
theorem step_cases {s t : State} (h : step s = .next t) :
    (s.nextEvent.1 = .instr ∧ instrStep s.nextEvent.2 = .next t) ∨
    (s.nextEvent.1 = .tick ∧ t = s.nextEvent.2.tick) ∨
    (∃ k, s.nextEvent.1 = .key k ∧ t = s.nextEvent.2.keyEvent k) ∨
    (s.nextEvent.1 = .reset ∧ t = s.nextEvent.2.hostReset) ∨
    (∃ a d, s.nextEvent.1 = .load a d ∧ s.nextEvent.2.run = false ∧ t = s.nextEvent.2.hostLoad a d) ∨
    (∃ b, s.nextEvent.1 = .run b ∧ t = s.nextEvent.2.hostRun b) := by
  unfold step eventStep at h
  cases he : s.nextEvent.1 <;> simp only [he] at h
  case instr => exact .inl ⟨rfl, h⟩
  case tick => cases h; simp
  case key k => cases h; simp
  case reset => cases h; simp
  case load a d =>
    unfold loadStep at h
    cases hr : s.nextEvent.2.run <;> simp only [hr] at h
    · simp at h; simp [h]
    · simp at h
  case run b => cases h; simp

end Sys2Proof.Machine
end

