-- ==== Sys2Proof/Laws/Exec.lean ====
section
/-! SUPPORT. What an instruction can do, said once for each: the fields its meaning can change when it raises no fault
(spec/40_control_flow.md, 41_alu.md, 42_index_memory.md, 43_display.md, 44_keys_timers_random.md), and fault entry otherwise
(60_exceptions.md R226). -/

namespace Sys2Proof.Machine

/-! ## From a mask and a match value to the decoder (R86) -/

theorem encodes_of_family {f : Nibble} {v : Word} {b : Word → Instr} (hv : v = formatXY f 0 0 0)
    (h : ∀ w, Field.family w = f → decodeOpt w = some (b w)) : Encodes 0xF000 v b := by
  intro w hw; subst hv
  exact (decode_ok_iff _ _).2 (h w ((mask_family w f).1 hw))

theorem encodes_of_family_n {f n : Nibble} {v : Word} {b : Word → Instr} (hv : v = formatXY f 0 0 n)
    (h : ∀ w, Field.family w = f → Field.n w = n → decodeOpt w = some (b w)) : Encodes 0xF00F v b := by
  intro w hw; subst hv
  obtain ⟨hf, hn⟩ := (mask_family_n w f n).1 hw
  exact (decode_ok_iff _ _).2 (h w hf hn)

theorem encodes_of_family_kk {f : Nibble} {kk : Byte} {v : Word} {b : Word → Instr} (hv : v = formatXK f 0 kk)
    (h : ∀ w, Field.family w = f → Field.kk w = kk → decodeOpt w = some (b w)) : Encodes 0xF0FF v b := by
  intro w hw; subst hv
  obtain ⟨hf, hk⟩ := (mask_family_kk w f kk).1 hw
  exact (decode_ok_iff _ _).2 (h w hf hk)

/-! ## Operands and bounds -/

theorem addrWord_toNat (nnn : Addr) : (addrWord nnn).toNat = nnn.toNat := by simp [addrWord]; omega

/-- No sum `nnn + V0` wraps (R113). -/
theorem offsetTarget_toNat (nnn : Addr) (v0 : Byte) : (offsetTarget nnn v0).toNat = nnn.toNat + v0.toNat := by
  have := nnn.isLt; have := v0.isLt
  simp [offsetTarget]; omega

/-- Where the block lies in memory, the index after it does not wrap (R165, R166). -/
theorem indexAfterBlock_toNat (i : Word) (x : Nibble) (h : i.toNat + x.toNat ≤ 0xFFF) :
    (indexAfterBlock i x).toNat = i.toNat + x.toNat + 1 := by
  have := x.isLt
  simp [indexAfterBlock]; omega

theorem State.inBounds_eq (s : State) (last : Nat) : s.inBounds last = !decide (s.i.toNat + last > 0xFFF) := by
  rw [Bool.eq_iff_iff, State.inBounds_iff]; simp

theorem State.skipIf_pc_eq (s : State) (c : Bool) : (s.skipIf c).pc = if c then s.pc + 4 else s.pc + 2 := by
  simp [State.npc, BitVec.add_assoc]

/-- `DRW`'s check: no row is read, or all of them are in memory (R181). -/
theorem State.drw_inBounds_iff (s : State) (n : Nibble) :
    (n = 0 ∨ s.inBounds (n.toNat - 1) = true) ↔ ¬ (n.toNat > 0 ∧ s.i.toNat + n.toNat - 1 > 0xFFF) := by
  rw [← BitVec.toNat_inj, State.inBounds_iff]
  simp; omega

/-! ## What each instruction can change -/

/-- `t` differs from `s` at most in what instruction `i` may change when it raises no fault. -/
def changes : Instr → State → State → Prop
  | .cls _, s, t => t = { s with fb := t.fb, cb := t.cb, pc := t.pc }
  | .drw _ _ _, s, t =>
    t = { s with v := t.v, fb := t.fb, cb := t.cb, pc := t.pc } ∧ t.cb.valid = false ∧ ∀ r, r ≠ 15 → t.getV r = s.getV r
  | .call _, s, t => t = { s with stack := t.stack, sp := t.sp, pc := t.pc }
  | .ret _, s, t => t = { s with sp := t.sp, pc := t.pc }
  | .ldI _, s, t => t = { s with i := t.i, pc := t.pc }
  | .addI _, s, t => t = { s with i := t.i, pc := t.pc }
  | .ldF _, s, t => t = { s with i := t.i, pc := t.pc }
  | .ldB _, s, t => t = { s with mem := t.mem, pc := t.pc }
  | .storeRegs _, s, t => t = { s with mem := t.mem, i := t.i, pc := t.pc }
  | .loadRegs x, s, t => t = { s with v := t.v, i := t.i, pc := t.pc } ∧ ∀ r, ¬ r.toNat ≤ x.toNat → t.getV r = s.getV r
  | .skp _, s, t => t = { s with keyIn := t.keyIn, draws := t.draws, pc := t.pc }
  | .sknp _, s, t => t = { s with keyIn := t.keyIn, draws := t.draws, pc := t.pc }
  | .ldVxK x, s, t => t = { s with wx := x, mode := .waitingForKey, pc := t.pc }
  | .ldDtVx _, s, t => t = { s with dt := t.dt, pc := t.pc }
  | .ldStVx _, s, t => t = { s with st := t.st, pc := t.pc }
  | .rnd x _, s, t =>
    t = { s with v := t.v, rndIn := t.rndIn, draws := t.draws, pc := t.pc } ∧ ∀ r, r ≠ x → t.getV r = s.getV r
  | .jp _, s, t => t = { s with pc := t.pc }
  | .jpV0 _, s, t => t = { s with pc := t.pc }
  | .seByte _ _, s, t => t = { s with pc := t.pc }
  | .sneByte _ _, s, t => t = { s with pc := t.pc }
  | .seReg _ _ _, s, t => t = { s with pc := t.pc }
  | .sneReg _ _ _, s, t => t = { s with pc := t.pc }
  | i, s, t =>
    t = { s with v := t.v, pc := t.pc } ∧
      ∀ r, namesDest i r = false → (r = 15 → writesFlag i = false) → t.getV r = s.getV r

/-- Every instruction answers a next state: its own changes, or fault entry with its word (R118 stage 4, R226). -/
theorem exec_cases (i : Instr) (s : State) :
    ∃ t, exec i s = .next t ∧ (changes i s t ∨ ∃ c, c ≠ .none ∧ FaultEntry s t c (encode i)) := by
  cases i
  case call nnn =>
    by_cases h : s.sp.val < 16
    · exact ⟨_, by simp [exec, execCall, s.push_eq_some _ h]; rfl, .inl (by simp only [changes]; rfl)⟩
    · exact ⟨_, by simp [exec, execCall, s.push_eq_none _ (by omega)]; rfl, .inr ⟨.stackOverflow, nofun, rfl⟩⟩
  case ret u =>
    by_cases h : 0 < s.sp.val
    · exact ⟨_, by simp [exec, execRet, s.pop_eq_some h]; rfl, .inl (by simp only [changes]; rfl)⟩
    · exact ⟨_, by simp [exec, execRet, s.pop_eq_none (by omega)]; rfl, .inr ⟨.stackUnderflow, nofun, rfl⟩⟩
  case ldB x =>
    cases h : s.inBounds 2
    · exact ⟨_, by simp [exec, execLdB, h]; rfl, .inr ⟨.memoryOutOfBounds, nofun, rfl⟩⟩
    · exact ⟨_, by simp [exec, execLdB, h]; rfl, .inl (by simp only [changes]; rfl)⟩
  case storeRegs x =>
    cases h : s.inBounds x.toNat
    · exact ⟨_, by simp [exec, execStoreRegs, h]; rfl, .inr ⟨.memoryOutOfBounds, nofun, rfl⟩⟩
    · exact ⟨_, by simp [exec, execStoreRegs, h]; rfl, .inl (by simp only [changes]; rfl)⟩
  case loadRegs x =>
    cases h : s.inBounds x.toNat
    · exact ⟨_, by simp [exec, execLoadRegs, h]; rfl, .inr ⟨.memoryOutOfBounds, nofun, rfl⟩⟩
    · refine ⟨_, by simp [exec, execLoadRegs, h]; rfl, .inl ⟨rfl, fun r hr => ?_⟩⟩
      exact (s.getV_loadRegsAtI x r).trans (if_neg hr)
  case drw x y n =>
    by_cases h : n = 0 ∨ s.inBounds (n.toNat - 1) = true
    · refine ⟨_, by simp only [exec, execDrw]; rw [if_pos h], .inl ⟨rfl, rfl, fun r hr => ?_⟩⟩
      rw [State.advance_getV, State.getV_setV]; exact if_neg hr
    · exact ⟨_, by simp only [exec, execDrw]; rw [if_neg h]; rfl, .inr ⟨.memoryOutOfBounds, nofun, rfl⟩⟩
  case skp x =>
    refine ⟨_, rfl, .inl ?_⟩
    cases hk : s.keyIn <;> simp [changes, State.skipIf, State.afterKeySample, hk, State.npc]
  case sknp x =>
    refine ⟨_, rfl, .inl ?_⟩
    cases hk : s.keyIn <;> simp [changes, State.skipIf, State.afterKeySample, hk, State.npc]
  case rnd x kk =>
    refine ⟨_, rfl, .inl ⟨?_, fun r hr => by simp [hr]⟩⟩
    cases hk : s.rndIn <;> simp [State.advance, State.setV, State.afterRndSample, hk, State.npc]
  all_goals first
    | exact ⟨_, rfl, .inl rfl⟩
    | exact ⟨_, rfl, .inl ⟨rfl, fun r h1 h2 => by simp_all [namesDest, writesFlag, flagReg]⟩⟩

/-- The same for a next state at hand. -/
theorem exec_next {i : Instr} {s t : State} (h : exec i s = .next t) :
    changes i s t ∨ ∃ c, c ≠ .none ∧ FaultEntry s t c (encode i) := by
  obtain ⟨t', h', r⟩ := exec_cases i s
  rw [h] at h'; cases h'; exact r

end Sys2Proof.Machine
end

