-- ==== Sys2Proof/Laws/PerInstr.lean ====
section
/-! SUPPORT. The per-instruction family OpcodeRow: an instruction's word selects a row of the opcode map whose fields give the
instruction back (spec/30_encoding.md R81, R86), with one lemma per constructor of Instr. -/

namespace Sys2Proof.Laws.OpcodeRow

/-- Some row of the opcode map is selected by the word of `i`, and builds `i` from that word's fields (R86). -/
def Statement (i : Instr) : Prop := ∃ r ∈ opcodeMap, r.selects (encode i) = true ∧ r.build (encode i) = i

/-- A row that builds the instruction from its word and whose mask its word meets. -/
theorem of_row (k : Nat) (hk : k < opcodeMap.length) {i : Instr}
    (hs : encode i &&& opcodeMap[k].mask = opcodeMap[k].value) (hb : opcodeMap[k].build (encode i) = i) : Statement i :=
  ⟨opcodeMap[k], List.getElem_mem hk, by simp [OpcodeRow.selects, hs], hb⟩

theorem cls (u : Nibble) : Statement (.cls u) :=
  of_row 0 (by decide) ((mask_family_kk _ 0x0 0xE0).2 (by simp [encode])) (by simp [encode, opcodeMap])

theorem ret (u : Nibble) : Statement (.ret u) :=
  of_row 1 (by decide) ((mask_family_kk _ 0x0 0xEE).2 (by simp [encode])) (by simp [encode, opcodeMap])

theorem jp (nnn : Addr) : Statement (.jp nnn) :=
  of_row 2 (by decide) ((mask_family _ 0x1).2 (by simp [encode])) (by simp [encode, opcodeMap])

theorem call (nnn : Addr) : Statement (.call nnn) :=
  of_row 3 (by decide) ((mask_family _ 0x2).2 (by simp [encode])) (by simp [encode, opcodeMap])

theorem seByte (x : Nibble) (kk : Byte) : Statement (.seByte x kk) :=
  of_row 4 (by decide) ((mask_family _ 0x3).2 (by simp [encode])) (by simp [encode, opcodeMap])

theorem sneByte (x : Nibble) (kk : Byte) : Statement (.sneByte x kk) :=
  of_row 5 (by decide) ((mask_family _ 0x4).2 (by simp [encode])) (by simp [encode, opcodeMap])

theorem seReg (x y u : Nibble) : Statement (.seReg x y u) :=
  of_row 6 (by decide) ((mask_family _ 0x5).2 (by simp [encode])) (by simp [encode, opcodeMap])

theorem ldByte (x : Nibble) (kk : Byte) : Statement (.ldByte x kk) :=
  of_row 7 (by decide) ((mask_family _ 0x6).2 (by simp [encode])) (by simp [encode, opcodeMap])

theorem addByte (x : Nibble) (kk : Byte) : Statement (.addByte x kk) :=
  of_row 8 (by decide) ((mask_family _ 0x7).2 (by simp [encode])) (by simp [encode, opcodeMap])

theorem ldReg (x y : Nibble) : Statement (.ldReg x y) :=
  of_row 9 (by decide) ((mask_family_n _ 0x8 0x0).2 (by simp [encode])) (by simp [encode, opcodeMap])

theorem orReg (x y : Nibble) : Statement (.orReg x y) :=
  of_row 10 (by decide) ((mask_family_n _ 0x8 0x1).2 (by simp [encode])) (by simp [encode, opcodeMap])

theorem andReg (x y : Nibble) : Statement (.andReg x y) :=
  of_row 11 (by decide) ((mask_family_n _ 0x8 0x2).2 (by simp [encode])) (by simp [encode, opcodeMap])

theorem xorReg (x y : Nibble) : Statement (.xorReg x y) :=
  of_row 12 (by decide) ((mask_family_n _ 0x8 0x3).2 (by simp [encode])) (by simp [encode, opcodeMap])

theorem addReg (x y : Nibble) : Statement (.addReg x y) :=
  of_row 13 (by decide) ((mask_family_n _ 0x8 0x4).2 (by simp [encode])) (by simp [encode, opcodeMap])

theorem subReg (x y : Nibble) : Statement (.subReg x y) :=
  of_row 14 (by decide) ((mask_family_n _ 0x8 0x5).2 (by simp [encode])) (by simp [encode, opcodeMap])

theorem shr (x u : Nibble) : Statement (.shr x u) :=
  of_row 15 (by decide) ((mask_family_n _ 0x8 0x6).2 (by simp [encode])) (by simp [encode, opcodeMap])

theorem subnReg (x y : Nibble) : Statement (.subnReg x y) :=
  of_row 16 (by decide) ((mask_family_n _ 0x8 0x7).2 (by simp [encode])) (by simp [encode, opcodeMap])

theorem shl (x u : Nibble) : Statement (.shl x u) :=
  of_row 17 (by decide) ((mask_family_n _ 0x8 0xE).2 (by simp [encode])) (by simp [encode, opcodeMap])

theorem sneReg (x y u : Nibble) : Statement (.sneReg x y u) :=
  of_row 18 (by decide) ((mask_family _ 0x9).2 (by simp [encode])) (by simp [encode, opcodeMap])

theorem ldI (nnn : Addr) : Statement (.ldI nnn) :=
  of_row 19 (by decide) ((mask_family _ 0xA).2 (by simp [encode])) (by simp [encode, opcodeMap])

theorem jpV0 (nnn : Addr) : Statement (.jpV0 nnn) :=
  of_row 20 (by decide) ((mask_family _ 0xB).2 (by simp [encode])) (by simp [encode, opcodeMap])

theorem rnd (x : Nibble) (kk : Byte) : Statement (.rnd x kk) :=
  of_row 21 (by decide) ((mask_family _ 0xC).2 (by simp [encode])) (by simp [encode, opcodeMap])

theorem drw (x y n : Nibble) : Statement (.drw x y n) :=
  of_row 22 (by decide) ((mask_family _ 0xD).2 (by simp [encode])) (by simp [encode, opcodeMap])

theorem skp (x : Nibble) : Statement (.skp x) :=
  of_row 23 (by decide) ((mask_family_kk _ 0xE 0x9E).2 (by simp [encode])) (by simp [encode, opcodeMap])

theorem sknp (x : Nibble) : Statement (.sknp x) :=
  of_row 24 (by decide) ((mask_family_kk _ 0xE 0xA1).2 (by simp [encode])) (by simp [encode, opcodeMap])

theorem ldVxDt (x : Nibble) : Statement (.ldVxDt x) :=
  of_row 25 (by decide) ((mask_family_kk _ 0xF 0x07).2 (by simp [encode])) (by simp [encode, opcodeMap])

theorem ldVxK (x : Nibble) : Statement (.ldVxK x) :=
  of_row 26 (by decide) ((mask_family_kk _ 0xF 0x0A).2 (by simp [encode])) (by simp [encode, opcodeMap])

theorem ldDtVx (x : Nibble) : Statement (.ldDtVx x) :=
  of_row 27 (by decide) ((mask_family_kk _ 0xF 0x15).2 (by simp [encode])) (by simp [encode, opcodeMap])

theorem ldStVx (x : Nibble) : Statement (.ldStVx x) :=
  of_row 28 (by decide) ((mask_family_kk _ 0xF 0x18).2 (by simp [encode])) (by simp [encode, opcodeMap])

theorem addI (x : Nibble) : Statement (.addI x) :=
  of_row 29 (by decide) ((mask_family_kk _ 0xF 0x1E).2 (by simp [encode])) (by simp [encode, opcodeMap])

theorem ldF (x : Nibble) : Statement (.ldF x) :=
  of_row 30 (by decide) ((mask_family_kk _ 0xF 0x29).2 (by simp [encode])) (by simp [encode, opcodeMap])

theorem ldB (x : Nibble) : Statement (.ldB x) :=
  of_row 31 (by decide) ((mask_family_kk _ 0xF 0x33).2 (by simp [encode])) (by simp [encode, opcodeMap])

theorem storeRegs (x : Nibble) : Statement (.storeRegs x) :=
  of_row 32 (by decide) ((mask_family_kk _ 0xF 0x55).2 (by simp [encode])) (by simp [encode, opcodeMap])

theorem loadRegs (x : Nibble) : Statement (.loadRegs x) :=
  of_row 33 (by decide) ((mask_family_kk _ 0xF 0x65).2 (by simp [encode])) (by simp [encode, opcodeMap])

end Sys2Proof.Laws.OpcodeRow
end

