-- ==== Sys2Proof/Laws/Runs.lean ====
section
/-! SUPPORT. The state a step takes its event from, runs of several steps, the launch state and the end of a run
(spec/60_exceptions.md R234, 70_reset_and_hazards.md R263, R264, R267). -/

namespace Sys2Proof.Machine

/-! ## The state without its next event -/

/-- What a step acts on is `afterEvent`. -/
theorem State.nextEvent_snd (s : State) : s.nextEvent.2 = afterEvent s := s.nextEvent_frame

/-- With an event at the head of the outside world's list, that is the state without it. -/
theorem afterEvent_cons (s : State) {e : Event} {rest : List Event} (h : s.outside = e :: rest) :
    afterEvent s = { s with outside := rest } := by rw [← State.nextEvent_snd, State.nextEvent_cons s h]

/-- A step does what falls next, on the state without it. -/
theorem step_eq (s : State) {e : Event} (h : s.nextEvent.1 = e) : step s = eventStep e (afterEvent s) := by
  rw [step, h, State.nextEvent_snd]

/-! ## Several steps -/

@[simp] theorem stepsFor_zero (s : State) : stepsFor 0 s = .next s := rfl

theorem stepsFor_succ {n : Nat} {s t : State} (h : step s = .next t) : stepsFor (n + 1) s = stepsFor n t := by
  simp [stepsFor, h]

/-! ## The launch state (R264) -/

@[simp] theorem loadEvents_length (a : Nat) (bs : List Byte) : (loadEvents a bs).length = bs.length := by
  induction bs generalizing a with
  | nil => rfl
  | cons b bs ih => simp [loadEvents, ih]

/-- The image stands from `ENTRY` upward. -/
theorem launch_readByte_inside (image : List Byte) (k : Nat) (h : k < image.length) :
    (launch image).readByte (0x200 + k) = image[k] := Memory.read_writeBytes_inside _ _ _ k h

/-- Everywhere else memory is as after reset. -/
theorem launch_readByte_outside (image : List Byte) (a : Nat) (h : a < 0x200 ∨ 0x200 + image.length ≤ a) :
    (launch image).readByte a = State.reset.readByte a := Memory.read_writeBytes_outside _ _ _ a h

/-- The host's load writes of bytes from `a`, while `run` is 0, leave the bytes in memory and the list at what follows. -/
theorem stepsFor_loadEvents (s : State) (a : Nat) (bs : List Byte) (rest : List Event) (hr : s.run = false)
    (ha : a + bs.length ≤ Config.memSize) (n : Nat) (ho : s.outside = loadEvents a bs ++ rest) :
    stepsFor (bs.length + n) s = stepsFor n { s with mem := Memory.writeBytes s.mem a bs, outside := rest } := by
  induction bs generalizing s a with
  | nil =>
    have : s = { s with mem := Memory.writeBytes s.mem a [], outside := rest } := by
      simp only [loadEvents, List.nil_append] at ho; simp [Memory.writeBytes, ← ho]
    rw [← this]; simp
  | cons b bs ih =>
    simp only [List.length_cons, Config.memSize] at ha
    have hb : (BitVec.ofNat 12 a).toNat = a := by simp; omega
    have hs : step s = .next { s with mem := Memory.write s.mem a b, outside := loadEvents (a + 1) bs ++ rest } := by
      rw [step_cons s ho]; simp [eventStep, loadStep, hr, State.hostLoad, hb]
    rw [List.length_cons, show bs.length + 1 + n = bs.length + n + 1 by omega, stepsFor_succ hs,
      ih { s with mem := Memory.write s.mem a b, outside := loadEvents (a + 1) bs ++ rest } (a + 1) hr
        (by unfold Config.memSize; omega) rfl]
    rfl

/-! ## The end of a run (R267) -/

/-- PC holds the address of a `JP` to itself, in `Running`. -/
theorem State.ended_iff (s : State) :
    s.ended = true ↔ s.mode = .running ∧ s.fetch = some (encode (.jp (Field.nnn s.pc))) := by
  simp [State.ended]

/-- A PC that can be fetched from is the address its low 12 bits give. -/
theorem addrWord_nnn (w : Word) (h : w.toNat ≤ 0xFFF) : addrWord (Field.nnn w) = w := by
  apply BitVec.eq_of_toNat_eq
  simp only [addrWord, BitVec.zeroExtend, BitVec.toNat_setWidth, Field.nnn_toNat]; omega

end Sys2Proof.Machine
end

