-- ==== Sys2Proof/Tests/Slice0.lean ====
section
/-! SUPPORT. Small tests of single steps and witnesses for the hypotheses of the statements. Expected results come from
spec/95_test_vectors.md, named by its vector, or from the encodings of spec/30_encoding.md R82 and R86. -/

open Sys2Proof Sys2Proof.Machine

namespace Sys2Proof.Tests

/-! ## Helpers -/

/-- The launch state of 95_test_vectors.md with some registers set. -/
def regs (l : List (Nibble × Byte)) : State := l.foldl (fun s p => s.setV p.1 p.2) State.reset

/-- What the next step leaves, where it answers a next state. -/
def after {α : Type} (s : State) (f : State → α) : Option α :=
  match step s with
  | .next t => some (f t)
  | .fault _ => none
  | .refused _ => none

/-- The same with a word placed at PC. -/
def runWord {α : Type} (s : State) (w : Nat) (f : State → α) : Option α := after (s.withFetchWord 16 w) f

/-- The operating state and the fault record. -/
def record (t : State) : Mode × Cause × Word × Word := (t.mode, t.faultKind, t.faultWord, t.faultAddr)

/-- The instruction the decoder reads, if any. -/
def dec (w : Word) : Option Instr := (decode w).toOption

/-- The launch state with one thing falling next. -/
def withEvent (s : State) (e : Event) : State := { s with outside := [e] }

/-- The launch state in a wait for register x. -/
def waiting (x : Nibble) : State := { State.reset with mode := .waitingForKey, wx := x, pc := 0x202 }

/-- The launch state after a fault at its first word, 0x0000. -/
def halted : State := State.reset.raise .unimplementedOpcode 0x0000

/-! ## WellFormed: an ill-formed term for each check (R89) -/

theorem test_wellFormed_cls : Instr.wellFormed (.cls 5) = false := by decide
theorem test_wellFormed_ret : Instr.wellFormed (.ret 5) = false := by decide
theorem test_wellFormed_seReg : Instr.wellFormed (.seReg 1 2 1) = false := by decide
theorem test_wellFormed_sneReg : Instr.wellFormed (.sneReg 1 2 0xF) = false := by decide
theorem test_wellFormed_shr : Instr.wellFormed (.shr 1 0xA) = false := by decide
theorem test_wellFormed_shl : Instr.wellFormed (.shl 1 3) = false := by decide
theorem test_wellFormed_canonical :
    [Instr.cls 0, .ret 0, .seReg 1 2 0, .sneReg 1 2 0, .shr 1 0, .shl 1 0].all Instr.wellFormed = true := by decide

/-! ## Decoding: every constructor's word, bit by bit (R82, R86) -/

theorem test_decode_0_to_3 :
    [dec 0b0000000011100000, dec 0b0000000011101110, dec 0b0001001010101000, dec 0b0010001100000000,
      dec 0b0011001100101010] =
    [some (.cls 0), some (.ret 0), some (.jp 0x2A8), some (.call 0x300), some (.seByte 3 0x2A)] := by decide

theorem test_decode_4_to_7 :
    [dec 0b0100001100101010, dec 0b0101000100100000, dec 0b0110000000000101, dec 0b0111000000000011] =
    [some (.sneByte 3 0x2A), some (.seReg 1 2 0), some (.ldByte 0 5), some (.addByte 0 3)] := by decide

theorem test_decode_8 :
    [dec 0b1000000100100000, dec 0b1000000100100001, dec 0b1000000100100010, dec 0b1000000100100011,
      dec 0b1000000100100100, dec 0b1000000100100101, dec 0b1000000100000110, dec 0b1000000100100111,
      dec 0b1000000100001110] =
    [some (.ldReg 1 2), some (.orReg 1 2), some (.andReg 1 2), some (.xorReg 1 2), some (.addReg 1 2),
      some (.subReg 1 2), some (.shr 1 0), some (.subnReg 1 2), some (.shl 1 0)] := by decide

theorem test_decode_9_to_E :
    [dec 0b1001000100100000, dec 0b1010001011110000, dec 0b1011001100000000, dec 0b1100001100001111,
      dec 0b1101000000010101, dec 0b1110010110011110, dec 0b1110010110100001] =
    [some (.sneReg 1 2 0), some (.ldI 0x2F0), some (.jpV0 0x300), some (.rnd 3 0x0F), some (.drw 0 1 5), some (.skp 5),
      some (.sknp 5)] := by decide

theorem test_decode_F :
    [dec 0b1111001000000111, dec 0b1111001100001010, dec 0b1111001000010101, dec 0b1111001000011000,
      dec 0b1111001000011110, dec 0b1111010000101001, dec 0b1111001100110011, dec 0b1111001001010101,
      dec 0b1111001001100101] =
    [some (.ldVxDt 2), some (.ldVxK 3), some (.ldDtVx 2), some (.ldStVx 2), some (.addI 2), some (.ldF 4), some (.ldB 3),
      some (.storeRegs 2), some (.loadRegs 2)] := by decide

/-- Words with ignored bits set, and the bytes the encoder lays out for one (R89, R54). -/
theorem test_decode_ignored_bits :
    [dec 0x03E0, dec 0x05EE, dec 0x5121, dec 0x912F, dec 0x81A6, dec 0x813E] =
    [some (.cls 3), some (.ret 5), some (.seReg 1 2 1), some (.sneReg 1 2 0xF), some (.shr 1 0xA), some (.shl 1 3)] ∧
    encodeBytes (.ret 5) = [0x05, 0xEE] := by decide

/-- X1 to X14: the words the vectors name as unimplemented. -/
theorem test_decode_unimplemented :
    [0x0000, 0x00E1, 0x0123, 0x00FF, 0x8128, 0x812F, 0x800D, 0xE000, 0xE19F, 0xE1A0, 0xF000, 0xF166, 0xF1FF,
      0xF130].all (fun w => dec w == none) = true := by decide

/-- The host's view of the decoder, and a byte list too short for a word (R80). -/
theorem test_decode_table_word :
    decodeTableWord 16 0x6005 = some (.ldByte 0 5) ∧ decodeTableWord 16 0x0000 = none ∧
    (decodeBytes [0x60]).toOption = none := by decide

/-! ## Control flow -/

/-- T1. -/
theorem test_jp : runWord State.reset 0x12A8 (fun t => t.pc) = some 0x2A8 := by decide
/-- T2: 0xFFF is reached, and cannot be fetched from. -/
theorem test_jp_top : runWord State.reset 0x1FFF (fun t => (t.pc, t.mode, t.fetch)) = some (0xFFF, .running, none) := by decide
/-- T6, with SP at its last free slot (R111). -/
theorem test_call :
    runWord { State.reset with pc := 0xFFE, sp := 15 } 0x2300 (fun t => (t.pc, t.sp, t.stack[15])) =
      some (0x300, 16, 0x1000) := by decide
/-- T5. -/
theorem test_call_overflow :
    runWord { State.reset with sp := 16 } 0x2300 (fun t => (record t, t.pc)) =
      some ((.halted, .stackOverflow, 0x2300, 0x0200), 0x200) := by decide
/-- T7: the slot keeps its value. -/
theorem test_ret :
    runWord { State.reset with pc := 0x300, sp := 1, stack := State.reset.stack.set 0 0x0202 } 0x00EE
      (fun t => (t.pc, t.sp, t.stack[0])) = some (0x202, 0, 0x0202) := by decide
/-- T8: the word is recorded as fetched. -/
theorem test_ret_underflow :
    runWord State.reset 0x05EE record = some (.halted, .stackUnderflow, 0x05EE, 0x0200) := by decide
/-- T10. -/
theorem test_jpV0 : runWord (regs [(0, 0x04)]) 0xB300 (fun t => t.pc) = some 0x304 := by decide
/-- T12: the largest PC, not masked. -/
theorem test_jpV0_top : runWord (regs [(0, 0xFF)]) 0xBFFF (fun t => (t.pc, t.mode)) = some (0x10FE, .running) := by decide
/-- T13. -/
theorem test_seByte : runWord (regs [(3, 0x2A)]) 0x332A (fun t => t.pc) = some 0x204 := by decide
/-- T14. -/
theorem test_seByte_not : runWord (regs [(3, 0x2B)]) 0x332A (fun t => t.pc) = some 0x202 := by decide
/-- T15. -/
theorem test_sneByte_not : runWord (regs [(3, 0x2A)]) 0x432A (fun t => t.pc) = some 0x202 := by decide
/-- T16. -/
theorem test_sneByte : runWord (regs [(3, 0x00)]) 0x432A (fun t => t.pc) = some 0x204 := by decide
/-- T18. -/
theorem test_seReg : runWord (regs [(1, 7), (2, 7)]) 0x5121 (fun t => t.pc) = some 0x204 := by decide
/-- T17 with V2 another value (R116). -/
theorem test_seReg_not : runWord (regs [(1, 7), (2, 8)]) 0x5120 (fun t => t.pc) = some 0x202 := by decide
/-- T22. -/
theorem test_sneReg : runWord (regs [(1, 7), (2, 8)]) 0x912F (fun t => t.pc) = some 0x204 := by decide
/-- T21. -/
theorem test_sneReg_not : runWord (regs [(1, 7), (2, 7)]) 0x9120 (fun t => t.pc) = some 0x202 := by decide

/-! ## ALU: the results of Vx (V1 where not said otherwise) and VF -/

/-- A register and VF after a step. -/
def resultAndFlag (x : Nibble) (t : State) : Byte × Byte := (t.getV x, t.getV 0xF)

/-- A1. -/
theorem test_ldByte : runWord State.reset 0x6005 (fun t => (t.getV 0, t.pc)) = some (0x05, 0x202) := by decide
/-- A4. -/
theorem test_addByte : runWord (regs [(0, 0xFF), (0xF, 0x77)]) 0x7002 (resultAndFlag 0) = some (0x01, 0x77) := by decide
/-- A5. -/
theorem test_addByte_VF : runWord (regs [(0xF, 0xFF)]) 0x7F01 (resultAndFlag 0xF) = some (0x00, 0x00) := by decide
/-- A6. -/
theorem test_ldReg : runWord (regs [(2, 0x9C)]) 0x8120 (resultAndFlag 1) = some (0x9C, 0x00) := by decide
/-- A8. -/
theorem test_orReg :
    runWord (regs [(1, 0xF0), (2, 0x0F), (0xF, 0x55)]) 0x8121 (resultAndFlag 1) = some (0xFF, 0x55) := by decide
/-- A9. -/
theorem test_andReg :
    runWord (regs [(1, 0xF3), (2, 0x3C), (0xF, 0x55)]) 0x8122 (resultAndFlag 1) = some (0x30, 0x55) := by decide
/-- A10. -/
theorem test_xorReg :
    runWord (regs [(1, 0xF3), (2, 0x3C), (0xF, 0x55)]) 0x8123 (resultAndFlag 1) = some (0xCF, 0x55) := by decide
/-- A17: y = 0xF, the old VF is the addend. -/
theorem test_addReg : runWord (regs [(1, 0x10), (0xF, 0xF5)]) 0x81F4 (resultAndFlag 1) = some (0x05, 0x01) := by decide
/-- A18: x = 0xF, the sum remains. -/
theorem test_addReg_VF : runWord (regs [(1, 0x20), (0xF, 0xF0)]) 0x8F14 (resultAndFlag 0xF) = some (0x10, 0x10) := by decide
/-- A20. -/
theorem test_subReg :
    runWord (regs [(1, 0x05), (2, 0x0A), (0xF, 0x01)]) 0x8125 (resultAndFlag 1) = some (0xFB, 0x00) := by decide
/-- A21: equal operands do not borrow. -/
theorem test_subReg_equal : runWord (regs [(1, 0x42), (2, 0x42)]) 0x8125 (resultAndFlag 1) = some (0x00, 0x01) := by decide
/-- A28 (E5). -/
theorem test_shr : runWord (regs [(1, 0x02), (0xF, 0x01)]) 0x8106 (resultAndFlag 1) = some (0x01, 0x00) := by decide
/-- A31: x = 0xF, the shifted value remains. -/
theorem test_shr_VF : runWord (regs [(0xF, 0x07)]) 0x8F06 (resultAndFlag 0xF) = some (0x03, 0x03) := by decide
/-- A34 (E6). -/
theorem test_subnReg : runWord (regs [(1, 0x05), (2, 0x0A)]) 0x8127 (resultAndFlag 1) = some (0x05, 0x01) := by decide
/-- A35 (E6). -/
theorem test_subnReg_borrow :
    runWord (regs [(1, 0x0A), (2, 0x05), (0xF, 0x01)]) 0x8127 (resultAndFlag 1) = some (0xFB, 0x00) := by decide
/-- A37. -/
theorem test_shl : runWord (regs [(1, 0x81)]) 0x810E (resultAndFlag 1) = some (0x02, 0x01) := by decide
/-- A42: y is ignored. -/
theorem test_shl_ignores_y : runWord (regs [(1, 0x40), (3, 0xFF)]) 0x813E (resultAndFlag 1) = some (0x80, 0x00) := by decide

/-! ## Index register and memory -/

/-- M2. -/
theorem test_ldI : runWord State.reset 0xAFFF (fun t => t.i) = some 0x0FFF := by decide
/-- M5. -/
theorem test_addI : runWord { regs [(2, 0xFF)] with i := 0x0FFE } 0xF21E (fun t => t.i) = some 0x00FD := by decide
/-- M6: from 0x1000. -/
theorem test_addI_top : runWord { regs [(2, 0x05)] with i := 0x1000 } 0xF21E (fun t => t.i) = some 0x0005 := by decide
/-- M8: only the low nibble counts. -/
theorem test_ldF : runWord (regs [(4, 0x1A)]) 0xF429 (fun t => t.i) = some 0x0032 := by decide
/-- M16: the last three bytes of memory. -/
theorem test_ldB :
    runWord { regs [(3, 0x7B)] with i := 0xFFD } 0xF333
      (fun t => (t.readByte 0xFFD, t.readByte 0xFFE, t.readByte 0xFFF, t.i)) = some (1, 2, 3, 0xFFD) := by decide
/-- M17: nothing written. -/
theorem test_ldB_out :
    runWord { regs [(3, 0x7B)] with i := 0xFFE } 0xF333 (fun t => (record t, t.readByte 0xFFE)) =
      some ((.halted, .memoryOutOfBounds, 0xF333, 0x0200), 0) := by decide
/-- M18: V3 is not stored. -/
theorem test_storeRegs :
    runWord { regs [(0, 0x11), (1, 0x22), (2, 0x33), (3, 0x44)] with i := 0x400 } 0xF255
      (fun t => (t.readByte 0x400, t.readByte 0x402, t.readByte 0x403, t.i)) = some (0x11, 0x33, 0, 0x403) := by decide
/-- M21: the whole instruction is checked, so the byte at 0xFFF is not written. -/
theorem test_storeRegs_out :
    runWord { regs [(0, 0x11), (1, 0x22)] with i := 0xFFF } 0xF155 (fun t => (record t, t.readByte 0xFFF, t.i)) =
      some ((.halted, .memoryOutOfBounds, 0xF155, 0x0200), 0, 0xFFF) := by decide
/-- M27: up to the last byte, I = 0x1000. -/
theorem test_loadRegs :
    runWord { State.reset with i := 0xFFE, mem := [(0xFFE, 1), (0xFFF, 2)] } 0xF165
      (fun t => (t.getV 0, t.getV 1, t.getV 2, t.i)) = some (1, 2, 0, 0x1000) := by decide
/-- M26: no register written. -/
theorem test_loadRegs_out :
    runWord { regs [(0, 9)] with i := 0xFFE, mem := [(0xFFE, 1), (0xFFF, 2)] } 0xF265 (fun t => (record t, t.getV 0)) =
      some ((.halted, .memoryOutOfBounds, 0xF265, 0x0200), 9) := by decide

/-! ## Display -/

/-- D1. -/
theorem test_cls :
    runWord { State.reset with fb := Vector.replicate 32 (BitVec.allOnes 64) } 0x00E0 (fun t => (t.fb, t.cb.kind, t.pc)) =
      some (Vector.replicate 32 0, .clear, 0x202) := by decide
/-- D5: the sprite wraps in both directions. -/
theorem test_drw :
    runWord { regs [(1, 0x3E), (2, 0x1F)] with i := 0x300, mem := [(0x300, 0xFF), (0x301, 0xFF)] } 0xD122
      (fun t => (t.fb, t.getV 0xF)) =
      some (((Vector.replicate 32 0).set 31 0xC00000000000003F).set 0 0xC00000000000003F, 0) := by decide
/-- D11: bits at columns 0 and 1 over a set pixel at column 1. -/
theorem test_drw_collision :
    runWord { State.reset with i := 0x300, mem := [(0x300, 0xC0)], fb := (Vector.replicate 32 0).set 0 2 } 0xD121
      (fun t => (t.fb[0], t.getV 0xF)) = some (1, 1) := by decide

/-! ## Keyboard, timers, random -/

/-- K1. -/
theorem test_skp :
    runWord { regs [(5, 0x0A)] with keyIn := [0x0400] } 0xE59E (fun t => (t.pc, t.keyIn)) = some (0x204, []) := by decide
/-- K4: a value above 0x0F matches no key. -/
theorem test_skp_high : runWord { regs [(5, 0x1A)] with keyIn := [0xFFFF] } 0xE59E (fun t => t.pc) = some 0x202 := by decide
/-- K6. -/
theorem test_sknp_not : runWord { regs [(5, 0x0A)] with keyIn := [0x0400] } 0xE5A1 (fun t => t.pc) = some 0x202 := by decide
/-- K7. -/
theorem test_sknp_high : runWord { regs [(5, 0x1A)] with keyIn := [0xFFFF] } 0xE5A1 (fun t => t.pc) = some 0x204 := by decide
/-- K8. -/
theorem test_ldVxK :
    runWord (regs [(3, 0x55)]) 0xF30A (fun t => (t.mode, t.wx, t.pc, t.getV 3)) =
      some (.waitingForKey, 3, 0x202, 0x55) := by decide
/-- K13, with the tick kept from falling first by the outside world's list. -/
theorem test_ldVxDt : runWord { State.reset with dt := 0x3C } 0xF207 (fun t => (t.getV 2, t.dt)) = some (0x3C, 0x3C) := by decide
/-- K14. -/
theorem test_ldDtVx : runWord (regs [(2, 0x3C)]) 0xF215 (fun t => (t.dt, t.st)) = some (0x3C, 0) := by decide
/-- K15. -/
theorem test_ldStVx : runWord (regs [(2, 0x05)]) 0xF218 (fun t => (t.st, t.soundActive)) = some (0x05, true) := by decide
/-- K20. -/
theorem test_rnd : runWord { regs [(3, 0xEE)] with rndIn := [0xB7] } 0xC30F (fun t => (t.getV 3, t.rndIn)) = some (0x07, []) := by
  decide

/-! ## Key events, ticks, faults of the step, host actions -/

/-- K12: the wait register is VF. -/
theorem test_key_event :
    after (withEvent (waiting 0xF) (.key 9)) (fun t => (t.getV 0xF, t.mode, t.pc)) = some (0x09, .running, 0x202) := by decide
/-- K11: an event in Running is dropped. -/
theorem test_key_event_dropped :
    after (withEvent State.reset (.key 7)) (fun t => t == { State.reset with outside := [] }) = some true := by decide
/-- K18 with DT = 0, ST = 1, in Halted (X16). -/
theorem test_tick_halted :
    after (withEvent { halted with dt := 0, st := 1 } .tick) (fun t => (t.dt, t.st, t.mode)) = some (0, 0, .halted) := by decide
/-- X1: the word at 0x200 of the launch state is 0x0000. -/
theorem test_unimplemented : after State.reset record = some (.halted, .unimplementedOpcode, 0x0000, 0x0200) := by decide
/-- T26, X17. -/
theorem test_fetch_out_of_bounds :
    after { State.reset with pc := 0xFFF } record = some (.halted, .memoryOutOfBounds, 0x0000, 0x0FFF) := by decide
/-- T25, the first step: 0xFFE is the last address that can be fetched. -/
theorem test_fetch_last :
    runWord { State.reset with pc := 0xFFE } 0x6A55 (fun t => (t.getV 0xA, t.pc)) = some (0x55, 0x1000) := by decide
/-- R227: no instruction step in Halted. -/
theorem test_halted_stops : step (withEvent halted .instr) = .fault (.halted .unimplementedOpcode) := by rfl
/-- R263, R272. -/
theorem test_load_refused : step (withEvent State.reset (.load 0x300 0x12)) = .refused .loadWhileRunning := by rfl
/-- R263. -/
theorem test_load :
    after (withEvent { State.reset with run := false } (.load 0x300 0x12)) (fun t => (t.readByte 0x300, t.readByte 0x301)) =
      some (0x12, 0) := by decide
/-- R260: a reset out of Halted. -/
theorem test_reset : after (withEvent halted .reset) (fun t => t == State.reset) = some true := by decide
/-- R265. -/
theorem test_run : after (withEvent State.reset (.run false)) (fun t => t.run) = some false := by decide
/-- R220: the numbers of the causes. -/
theorem test_cause_codes :
    [Cause.none, .unimplementedOpcode, .stackOverflow, .stackUnderflow, .memoryOutOfBounds].map Cause.code =
      [0, 1, 2, 3, 4] := by decide
/-- Memory in its canonical form: a reset byte written again leaves no cell (log entry 12). -/
theorem test_memory_canonical :
    Memory.write (Memory.write [] 0x300 1) 0x300 0 = [] ∧ Memory.write [] 0x000 0xF0 = [] ∧
    Memory.write [(0x300, 1)] 0x200 2 = [(0x200, 2), (0x300, 1)] := by decide

/-! ## Launch and end of a run (R264, R267) -/

/-- R264: the image of E7 from 0x200, the glyphs, and 0x00 after the image; PC at `ENTRY`. -/
theorem test_launch :
    let s := launch [0x60, 0x05, 0x70, 0x03]
    (s.readByte 0x200, s.readByte 0x203, s.readByte 0x204, s.readByte 0x000, s.pc) = (0x60, 0x03, 0, 0xF0, 0x200) := by
  decide
/-- R263, R264: the host's script for a one-byte image ends in its launch state. -/
theorem test_launch_script :
    stepsFor 3 { State.reset with outside := launchScript [0x60] } = .next (launch [0x60]) := by rfl
/-- R267 (c): the word 0x1200 at 0x200 is a `JP` to itself; 0x1202 there is not. -/
theorem test_ended :
    (launch [0x12, 0x00]).ended = true ∧ (launch [0x12, 0x02]).ended = false ∧
    after (launch [0x12, 0x00]) (fun t => t == launch [0x12, 0x00]) = some true := by decide
/-- R267 (a), (b): a halted state and a state with `run` low are other ends of a run. -/
theorem test_other_ends :
    (halted.failed, halted.ended) = (true, false) ∧
    (({ State.reset with run := false } : State).stoppedByHost, State.reset.stoppedByHost) = (true, false) := by decide

/-! ## Witnesses: states and operands that meet the hypotheses of the statements -/

/-- Encodes, in every statement that holds one: each row's match value meets its own mask. -/
theorem witness_Encodes : opcodeMap.all (fun r => r.selects r.value) = true := by decide

theorem witness_SixteenCallsThenOverflow :
    State.reset.sp.val = 0 ∧ (List.replicate 16 (0x200 : Addr)).length = 16 := by decide

/-- At the last free slot. -/
theorem witness_CallThenRetRestores : ({ State.reset with sp := 15 } : State).sp.val < 16 := by decide

theorem witness_CopyAndLogicWriteOnlyVx (x y : Nibble) :
    ∀ p ∈ [((.ldReg x y, fun _ b => b) : Instr × (Bool → Bool → Bool)), (.orReg x y, or), (.andReg x y, and),
      (.xorReg x y, xor)],
      p = (.ldReg x y, fun _ b => b) ∨ p = (.orReg x y, or) ∨ p = (.andReg x y, and) ∨ p = (.xorReg x y, xor) := by
  intro p hp
  simpa using hp

/-- The last block that fits. (The registers given in between are any.) -/
theorem witness_StoreThenLoadRestoresRegisters : (0xFF0 : Addr).toNat + (0xF : Nibble).toNat ≤ 0xFFF := by decide

/-- Stores over the last word of memory. -/
theorem witness_StoreIsSeenByNextFetch :
    1 ≤ (1 : Nibble).toNat ∧ (0xFFC : Word).toNat + 2 + (1 : Nibble).toNat ≤ 0xFFF ∧ (0xFFE : Word) = 0xFFC + 2 := by decide

/-- Both clauses of `DRW`'s flag and pixels: a covered pixel that is 1 (D11), a covered pixel that is 0, one not covered. -/
theorem witness_DrawSprite :
    let s : State := { State.reset with i := 0x300, mem := [(0x300, 0xC0)], fb := (Vector.replicate 32 0).set 0 2 }
    SpriteCovers s 0 0 1 0 1 ∧ pixel s.fb 0 1 = true ∧ SpriteCovers s 0 0 1 0 0 ∧ pixel s.fb 0 0 = false ∧
      ¬ SpriteCovers s 0 0 1 0 2 := by
  refine ⟨⟨0, by decide, 1, by decide, by decide⟩, by decide, ⟨0, by decide, 0, by decide, by decide⟩, by decide, ?_⟩
  rintro ⟨r, hr, c, hc, hb, -, h⟩
  obtain rfl : r = 0 := by have : r < 1 := hr; omega
  obtain rfl : c = 2 := by simp at h; omega
  exact absurd hb (by decide)

/-- No collision: nothing is set (D12 has the same answer). -/
theorem witness_DrawSprite_noCollision :
    ¬ ∃ R C, SpriteCovers State.reset 0 0 1 R C ∧ pixel State.reset.fb R C = true := by
  rintro ⟨R, C, -, h⟩
  simp [pixel, State.reset] at h

theorem witness_BlitTwiceRestores : (List.replicate 15 (0xFF : Byte)).length ≤ 15 := by decide

/-- OnlyStoresWriteMemory, both sides: a store that changes memory, and an instruction that does not. -/
theorem witness_OnlyStoresWriteMemory :
    (∃ t, exec (.storeRegs 0) { regs [(0, 1)] with i := 0x300 } = .next t ∧ t.mem = [(0x300, 1)]) ∧
    (∃ t, exec (.jp 0x300) State.reset = .next t ∧ t.mem = []) := ⟨⟨_, rfl, by decide⟩, ⟨_, rfl, rfl⟩⟩

theorem witness_OnlyCommandsChangeDisplay :
    (∃ t, exec (.cls 0) { State.reset with fb := Vector.replicate 32 1 } = .next t ∧ t.fb = Vector.replicate 32 0) ∧
    (∃ t, exec (.jp 0x300) State.reset = .next t ∧ t.fb = State.reset.fb ∧ t.cb = State.reset.cb) :=
  ⟨⟨_, rfl, rfl⟩, ⟨_, rfl, rfl, rfl⟩⟩

/-- A destination, and VF as a flag. -/
theorem witness_RegistersChangeOnlyAsDestination :
    (∃ t, exec (.ldByte 0 5) State.reset = .next t ∧ t.getV 0 ≠ State.reset.getV 0) ∧
    (∃ t, exec (.addReg 1 2) (regs [(1, 0xFF), (2, 1)]) = .next t ∧ t.getV 0xF ≠ (regs [(1, 0xFF), (2, 1)]).getV 0xF) :=
  ⟨⟨_, rfl, by decide⟩, ⟨_, rfl, by decide⟩⟩

theorem witness_OnlyCallAndRetUseStack :
    (∃ t, exec (.call 0x300) State.reset = .next t ∧ t.sp = 1) ∧
    (∃ t, exec (.ldByte 0 5) State.reset = .next t ∧ t.sp = 0) := ⟨⟨_, rfl, rfl⟩, ⟨_, rfl, rfl⟩⟩

theorem witness_OnlyTheirLoadsWriteTimersAndIndex :
    (∃ t, exec (.ldDtVx 2) (regs [(2, 3)]) = .next t ∧ t.dt = 3) ∧
    (∃ t, exec (.ldStVx 2) (regs [(2, 3)]) = .next t ∧ t.st = 3) ∧
    (∃ t, exec (.ldI 0x300) State.reset = .next t ∧ t.i = 0x300) := ⟨⟨_, rfl, rfl⟩, ⟨_, rfl, rfl⟩, ⟨_, rfl, rfl⟩⟩

/-- OnlyKeyWaitSuspends and OwnFaultsAreExactlyThese: `Running`, with every own fault and with none, at the bounds. -/
theorem witness_OwnFaultsAreExactlyThese :
    State.reset.mode = .running ∧
    [ownFault (.call 0x300) { State.reset with sp := 15 }, ownFault (.call 0x300) { State.reset with sp := 16 },
      ownFault (.ret 0) { State.reset with sp := 1 }, ownFault (.ret 0) State.reset,
      ownFault (.drw 0 0 2) { State.reset with i := 0xFFE }, ownFault (.drw 0 0 2) { State.reset with i := 0xFFF },
      ownFault (.drw 0 0 0) { State.reset with i := 0x1000 }] =
    [.none, .stackOverflow, .none, .stackUnderflow, .none, .memoryOutOfBounds, .none] ∧
    [ownFault (.ldB 0) { State.reset with i := 0xFFD }, ownFault (.ldB 0) { State.reset with i := 0xFFE },
      ownFault (.storeRegs 1) { State.reset with i := 0xFFE }, ownFault (.storeRegs 1) { State.reset with i := 0xFFF },
      ownFault (.loadRegs 1) { State.reset with i := 0xFFE }, ownFault (.loadRegs 1) { State.reset with i := 0xFFF }] =
    [.none, .memoryOutOfBounds, .none, .memoryOutOfBounds, .none, .memoryOutOfBounds] := by decide

/-- With the event given, and with nothing in store. -/
theorem witness_FetchOutOfBoundsFaults :
    let s : State := { State.reset with pc := 0xFFF }
    (withEvent s .instr).nextEvent.1 = .instr ∧ s.nextEvent.1 = .instr ∧ s.mode = .running ∧ s.run = true ∧
    s.pc.toNat > 0xFFE := by decide

/-- At the last address that can be fetched, with the event given, and with nothing in store. -/
theorem witness_UnimplementedWordFaults :
    let s : State := { State.reset with pc := 0xFFE }
    (withEvent s .instr).nextEvent.1 = .instr ∧ s.nextEvent.1 = .instr ∧ s.mode = .running ∧ s.run = true ∧
    s.pc.toNat ≤ 0xFFE ∧ 0x0000 = wordOfBytes (s.readByte s.pc.toNat) (s.readByte (s.pc.toNat + 1)) ∧
    ∀ r ∈ opcodeMap, r.selects 0x0000 = false := by decide

/-- KeyEventEndsWait: both modes of its clauses. -/
theorem witness_KeyEventEndsWait :
    (withEvent (waiting 3) (.key 7)).nextEvent.1 = .key 7 ∧ (withEvent (waiting 3) (.key 7)).mode = .waitingForKey ∧
    (withEvent State.reset (.key 7)).nextEvent.1 = .key 7 ∧ (withEvent State.reset (.key 7)).mode ≠ .waitingForKey := by
  decide

/-- The same for a key event that is drawn, whichever key the free value gives. -/
theorem witness_KeyEventEndsWait_drawn (k : Nibble) (h : Config.keyEvent 0 = some k) :
    (waiting 3).nextEvent.1 = .key k ∧ (waiting 3).outside = [] := by
  refine ⟨?_, rfl⟩
  simp [State.nextEvent, State.freeEvent, waiting, State.reset, h]

/-- HaltedIsTerminal: each case of a step that answers a next state there. -/
theorem witness_HaltedIsTerminal :
    halted.mode = .halted ∧ (∃ t, step (withEvent { halted with dt := 2 } .tick) = .next t ∧ t.dt = 1) ∧
    (∃ t, step (withEvent halted (.key 7)) = .next t ∧ t = halted) ∧
    (∃ t, step (withEvent { halted with run := false } (.load 0x300 1)) = .next t ∧ t.mem = [(0x300, 1)]) ∧
    (∃ t, step (withEvent halted (.run false)) = .next t ∧ t.run = false) ∧
    (∃ t, step (withEvent halted .reset) = .next t ∧ t.mode = .running) :=
  ⟨rfl, ⟨_, rfl, rfl⟩, ⟨_, rfl, rfl⟩, ⟨_, rfl, by decide⟩, ⟨_, rfl, rfl⟩, ⟨_, rfl, rfl⟩⟩

/-- StepStopsOnlyHere: both stops are reached (test_halted_stops and test_load_refused), and a step that does not stop. -/
theorem witness_StepStopsOnlyHere :
    halted.mode = .halted ∧ (withEvent halted .instr).nextEvent.1 = .instr ∧
    (withEvent State.reset (.load 0x300 0x12)).run = true ∧ (withEvent State.reset .tick).nextEvent.1 = .tick := by decide

/-- A tick given, and a tick with nothing in store. -/
theorem witness_TickCountsBothTimersDown :
    (withEvent halted .tick).nextEvent.1 = .tick ∧ ({ halted with st := 1 } : State).nextEvent.1 = .tick := by decide

theorem witness_HostResetFromAnyState : (withEvent halted .reset).outside = .reset :: [] := by decide

/-- At the last address of memory, and the longest image. -/
theorem witness_LoadPortWritesAndLaunches :
    let s : State := withEvent { State.reset with run := false } (.load 0xFFF 0x12)
    s.outside = .load 0xFFF 0x12 :: [] ∧ s.run = false ∧ (List.replicate 3584 (0x60 : Byte)).length ≤ 3584 := by
  exact ⟨rfl, rfl, List.length_replicate.le⟩

/-- RunGatesInstructionSteps: each of the three clauses. -/
theorem witness_RunGatesInstructionSteps :
    let s : State := withEvent { State.reset with run := false } .instr
    let w : State := { withEvent (waiting 3) (.key 7) with run := false }
    (s.outside = .instr :: [] ∧ s.mode = .running ∧ s.run = false) ∧
    (withEvent State.reset (.run true)).outside = .run true :: [] ∧
    (w.outside = .key 7 :: [] ∧ w.mode = .waitingForKey) := by decide

/-- WaitIsLeftByKeyOrReset: each case. -/
theorem witness_WaitIsLeftByKeyOrReset :
    (waiting 3).mode = .waitingForKey ∧ (∃ t, step (withEvent (waiting 3) (.key 7)) = .next t ∧ t.getV 3 = 7) ∧
    (∃ t, step (withEvent { waiting 3 with dt := 2 } .tick) = .next t ∧ t.dt = 1) ∧
    (∃ t, step (withEvent { waiting 3 with run := false } (.load 0x300 1)) = .next t ∧ t.mem = [(0x300, 1)]) ∧
    (∃ t, step (withEvent (waiting 3) (.run false)) = .next t ∧ t.run = false) ∧
    (∃ t, step (withEvent (waiting 3) .instr) = .next t ∧ t = waiting 3) ∧
    (∃ t, step (withEvent (waiting 3) .reset) = .next t ∧ t.pc = 0x200) :=
  ⟨rfl, ⟨_, rfl, rfl⟩, ⟨_, rfl, rfl⟩, ⟨_, rfl, by decide⟩, ⟨_, rfl, rfl⟩, ⟨_, rfl, rfl⟩, ⟨_, rfl, rfl⟩⟩

/-- StepRunsDecodedInstruction: both clauses, with the list given and with it empty. -/
theorem witness_StepRunsDecodedInstruction :
    let s : State := { State.reset with mem := [(0x200, 0x60), (0x201, 0x05)] }
    s.mode = .running ∧ s.run = true ∧ s.pc.toNat ≤ 0xFFE ∧
    decode (wordOfBytes (s.readByte s.pc.toNat) (s.readByte (s.pc.toNat + 1))) = .ok (.ldByte 0 5) ∧
    s.outside = [] ∧ (withEvent s .instr).outside = .instr :: [] :=
  ⟨rfl, rfl, by decide, rfl, rfl, rfl⟩

theorem witness_EncodeInvertsDecode : decode 0x8AB6 = .ok (.shr 0xA 0xB) := by rfl

/-- DecoderAgreesWithOpcodeMap: its two premises (the second is the last part of witness_UnimplementedWordFaults). -/
theorem witness_DecoderAgreesWithOpcodeMap : opcodeMap.any (fun r => r.selects 0x8AB6) = true := by decide

theorem witness_IgnoredBitsDoNotMatter : ({ State.reset with sp := 1 } : State).sp.val ≠ 0 := by decide

/-- EveryStepKeepsInvariant and EveryStepKeepsMemoryCanonical: a state with the invariant, and a step from it. -/
theorem witness_EveryStepKeepsInvariant :
    let s : State := State.reset.withFetchWord 16 0x6005
    s.Inv ∧ Memory.wf s.mem = true ∧ ∃ t, step s = .next t ∧ t.pc = 0x202 :=
  ⟨⟨⟨by decide, by decide, by decide⟩, ⟨by decide, by decide, by decide⟩, rfl, rfl⟩, rfl, _, rfl, rfl⟩

/-- EndedProgramRests: an ended state, with an instruction step next, and with a tick next. -/
theorem witness_EndedProgramRests :
    let s := launch [0x12, 0x00]
    s.ended = true ∧ s.nextEvent.1 = .instr ∧ (withEvent { s with dt := 2 } .tick).ended = true ∧
    ∃ t, step (withEvent { s with dt := 2 } .tick) = .next t ∧ t.dt = 1 ∧ t.ended = true :=
  ⟨by decide, by decide, by decide, _, rfl, rfl, by decide⟩

end Sys2Proof.Tests
end

section
/-! PROOFS. The statements on the state (spec/10_state.md R20 to R40): what an instruction leaves unchanged, where it can leave
PC, I, the stack and memory, and the invariant that every step keeps. -/

namespace Sys2Proof.Machine

/-! ## What an instruction leaves unchanged -/

/-- `t` differs from `s` at most in the state the instruction owns: the stack, SP, I, memory, the timers, the mode and the
display have the writers named here, and the fault record has fault entry (R21 to R35). -/
inductive ExecEffect (s t : State) : Instr → Prop
  | call (nnn : Addr) (h : t = { s with stack := t.stack, sp := t.sp, pc := t.pc }) : ExecEffect s t (.call nnn)
  | ret (u : Nibble) (h : t = { s with sp := t.sp, pc := t.pc }) : ExecEffect s t (.ret u)
  | index {i : Instr} (hi : (∃ nnn, i = .ldI nnn) ∨ ∃ x, i = .addI x ∨ i = .ldF x ∨ i = .loadRegs x)
      (h : t = { s with v := t.v, i := t.i, pc := t.pc }) : ExecEffect s t i
  | storeBlock (x : Nibble) (h : t = { s with mem := t.mem, i := t.i, pc := t.pc }) : ExecEffect s t (.storeRegs x)
  | storeDigits (x : Nibble) (h : t = { s with mem := t.mem, pc := t.pc }) : ExecEffect s t (.ldB x)
  | clear (u : Nibble) (h : t = { s with cb := t.cb, fb := t.fb, pc := t.pc }) : ExecEffect s t (.cls u)
  | draw (x y n : Nibble) (h : t = { s with v := t.v, cb := t.cb, fb := t.fb, pc := t.pc }) :
      ExecEffect s t (.drw x y n)
  | keyWait (x : Nibble) (h : t = { s with wx := x, mode := .waitingForKey, pc := t.pc }) : ExecEffect s t (.ldVxK x)
  | delayTimer (x : Nibble) (h : t = { s with dt := t.dt, pc := t.pc }) : ExecEffect s t (.ldDtVx x)
  | soundTimer (x : Nibble) (h : t = { s with st := t.st, pc := t.pc }) : ExecEffect s t (.ldStVx x)
  | other {i : Instr}
      (h : t = { s with v := t.v, keyIn := t.keyIn, rndIn := t.rndIn, draws := t.draws, pc := t.pc }) : ExecEffect s t i
  | fault {i : Instr} (c : Cause) (hc : c ≠ .none) (h : FaultEntry s t c (encode i)) : ExecEffect s t i

/-- What an instruction may change when it raises no fault lies within what it owns. -/
theorem execEffect_of_changes {i : Instr} {s t : State} (h : changes i s t) : ExecEffect s t i := by
  cases i
  case call nnn => exact .call nnn h
  case ret u => exact .ret u h
  case storeRegs x => exact .storeBlock x h
  case ldB x => exact .storeDigits x h
  case cls u => exact .clear u h
  case drw x y n => exact .draw x y n h.1
  case ldVxK x => exact .keyWait x h
  case ldDtVx x => exact .delayTimer x h
  case ldStVx x => exact .soundTimer x h
  case ldI | addI | ldF => exact .index (by simp) (by rw [h])
  case loadRegs => exact .index (by simp) h.1
  case jp | jpV0 | seByte | sneByte | seReg | sneReg | skp | sknp => exact .other (by rw [h])
  all_goals exact .other (by rw [h.1])

/-- Every instruction does what it owns, or enters a fault. -/
theorem execEffect_of_exec {i : Instr} {s t : State} (hexec : exec i s = .next t) : ExecEffect s t i := by
  obtain hc | ⟨c, hne, hfault⟩ := exec_next hexec
  · exact execEffect_of_changes hc
  · exact .fault c hne hfault

/-- A register that is neither a destination nor the flag of an instruction keeps its value (R21). -/
theorem changes_getV {i : Instr} {s t : State} {r : Nibble} (h : changes i s t) (hd : namesDest i r = false)
    (hf : r = 0xF → writesFlag i = false) : t.getV r = s.getV r := by
  cases i
  case drw => exact h.2.2 r fun hr => Bool.noConfusion (hf hr)
  case loadRegs => exact h.2 r (of_decide_eq_false hd)
  case rnd => exact h.2 r (beq_eq_false_iff_ne.1 hd)
  case ldByte | addByte | ldReg | orReg | andReg | xorReg | addReg | subReg | shr | subnReg | shl | ldVxDt =>
    exact h.2 r hd hf
  all_goals rw [h]; rfl

/-- Fault entry leaves every register alone (R226). -/
theorem FaultEntry.getV {s t : State} {c : Cause} {w : Word} (h : FaultEntry s t c w) (r : Nibble) :
    t.getV r = s.getV r := by rw [h]; rfl

/-- Settles O34: the register rule of `changes`, and fault entry writes no register. -/
theorem registersChangeOnlyAsDestination : Obligations.RegistersChangeOnlyAsDestination := by
  intro i s t r hexec hne
  by_contra hno
  rw [not_or, not_and, Bool.not_eq_true, Bool.not_eq_true] at hno
  obtain ⟨hd, hf⟩ := hno
  obtain hc | ⟨c, -, hfault⟩ := exec_next hexec
  · exact hne (changes_getV hc hd hf)
  · exact hne (hfault.getV r)

/-- Settles O35: `CALL` and `RET` own the stack and SP. -/
theorem onlyCallAndRetUseStack : Obligations.OnlyCallAndRetUseStack := by
  intro i s t hexec
  cases execEffect_of_exec hexec with
  | call nnn _ => exact ⟨.inr ⟨nnn, rfl⟩, .inr (.inl ⟨nnn, rfl⟩)⟩
  | ret u h => exact ⟨.inl (by rw [h]), .inr (.inr ⟨u, rfl⟩)⟩
  | index _ h | storeBlock _ h | storeDigits _ h | clear _ h | draw _ _ _ h | keyWait _ h | delayTimer _ h
  | soundTimer _ h | other h | fault _ _ h => exact ⟨.inl (by rw [h]), .inl (by rw [h])⟩

/-- Settles O36: each timer has its own load, and I its five instructions. -/
theorem onlyTheirLoadsWriteTimersAndIndex : Obligations.OnlyTheirLoadsWriteTimersAndIndex := by
  intro i s t hexec
  cases execEffect_of_exec hexec with
  | index hi h =>
    refine ⟨.inl (by rw [h]), .inl (by rw [h]), .inr (hi.imp_right ?_)⟩
    rintro ⟨x, hx | hx | hx⟩ <;> exact ⟨x, by simp [hx]⟩
  | storeBlock x h => exact ⟨.inl (by rw [h]), .inl (by rw [h]), .inr (.inr ⟨x, by simp⟩)⟩
  | delayTimer x h => exact ⟨.inr ⟨x, rfl⟩, .inl (by rw [h]), .inl (by rw [h])⟩
  | soundTimer x h => exact ⟨.inl (by rw [h]), .inr ⟨x, rfl⟩, .inl (by rw [h])⟩
  | call _ h | ret _ h | storeDigits _ h | clear _ h | draw _ _ _ h | keyWait _ h | other h | fault _ _ h =>
    exact ⟨.inl (by rw [h]), .inl (by rw [h]), .inl (by rw [h])⟩

/-- Settles O37: the key wait owns the mode, and fault entry halts. -/
theorem onlyKeyWaitSuspends : Obligations.OnlyKeyWaitSuspends := by
  intro i s hm
  obtain ⟨t, ht, -⟩ := exec_cases i s
  refine ⟨t, ht, ?_⟩
  cases execEffect_of_exec ht with
  | keyWait x h => exact .inr (.inl ⟨by rw [h], x, rfl⟩)
  | fault c hc h => exact .inr (.inr ⟨by rw [h], c, hc, h⟩)
  | call _ h | ret _ h | index _ h | storeBlock _ h | storeDigits _ h | clear _ h | draw _ _ _ h | delayTimer _ h
  | soundTimer _ h | other h => exact .inl (by rw [h, ← hm])

/-! ## Timers and reset -/

/-- Settles O44, by induction on the number of ticks. -/
theorem ticksNeverGoBelowZero : Obligations.TicksNeverGoBelowZero := by
  intro k s
  induction k with
  | zero => exact ⟨rfl, rfl⟩
  | succ k ih =>
    obtain ⟨hd, hs⟩ := ih
    rw [Function.iterate_succ_apply']
    simp only [State.tick, countDown_toNat, hd, hs]
    omega

/-- Past the sixteen glyphs every byte is 0 after reset (R38). -/
theorem resetByte_past_glyphs {a : Nat} (h : 80 ≤ a) : resetByte a = 0 :=
  (if_pos (Nat.zero_le a)).trans (List.getD_eq_default _ _ h)

/-- Settles O45: every piece read off `State.reset`, the glyph table byte by byte. -/
theorem resetValues : Obligations.ResetValues := by
  refine ⟨fun r => ?_, rfl, rfl, rfl, fun j => ?_, rfl, rfl, rfl, rfl, rfl, rfl, rfl, rfl, rfl, rfl, rfl, rfl, rfl,
    fun r => ?_, fun R C => ?_, fun a h => ?_, by decide, by decide⟩
  · exact Vector.getElem_replicate _
  · exact Vector.getElem_replicate _
  · exact Vector.getElem_replicate _
  · simp [pixel, State.reset]
  · exact resetByte_past_glyphs h

/-! ## Where an instruction leaves PC, I, the stack, memory and the command buffer -/

/-- An instruction with one check ends in the meaning of the branch it takes. -/
theorem next_ite {c : Prop} [Decidable c] {a b t : State}
    (h : (if c then .next a else .next b : Host.Outcome State Fault Refusal) = .next t) :
    (c ∧ t = a) ∨ (¬ c ∧ t = b) := by
  split at h <;> cases h
  · exact .inl ⟨‹c›, rfl⟩
  · exact .inr ⟨‹¬ c›, rfl⟩

/-- `CALL` pushes `npc` and jumps, or enters its fault (R111). -/
theorem execCall_next {nnn : Addr} {s t : State} (h : execCall nnn s = .next t) :
    (∃ hsp : s.sp.val < 16, t.stack = s.stack.set s.sp.val s.npc hsp ∧ t.pc = addrWord nnn) ∨
    t = s.raise .stackOverflow (encode (.call nnn)) := by
  by_cases hsp : s.sp.val < 16
  · rw [execCall, s.push_eq_some _ hsp] at h
    cases h
    exact .inl ⟨hsp, rfl, rfl⟩
  · rw [execCall, s.push_eq_none _ (by omega)] at h
    cases h
    exact .inr rfl

/-- `RET` jumps to the slot under SP, or enters its fault (R112). -/
theorem execRet_next {u : Nibble} {s t : State} (h : execRet u s = .next t) :
    (∃ j : Fin 16, t.pc = s.stack[j.val]) ∨ t = s.raise .stackUnderflow (encode (.ret u)) := by
  by_cases hsp : 0 < s.sp.val
  · rw [execRet, s.pop_eq_some hsp] at h
    cases h
    exact .inl ⟨⟨s.sp.val - 1, by omega⟩, rfl⟩
  · rw [execRet, s.pop_eq_none (by omega)] at h
    cases h
    exact .inr rfl

/-- PC stays (fault entry), goes to the next instruction in line or the one after it, or to one of the three jump targets
(R23, R110 to R113, R120). -/
theorem exec_pc_cases {i : Instr} {s t : State} (hexec : exec i s = .next t) :
    t.pc = s.pc ∨ t.pc = s.pc + 2 ∨ t.pc = s.pc + 4 ∨ (∃ nnn, t.pc = addrWord nnn) ∨
    (∃ nnn b, t.pc = offsetTarget nnn b) ∨ ∃ j : Fin 16, t.pc = s.stack[j.val] := by
  cases i
  case jp nnn => cases hexec; exact .inr (.inr (.inr (.inl ⟨nnn, rfl⟩)))
  case jpV0 nnn => cases hexec; exact .inr (.inr (.inr (.inr (.inl ⟨nnn, _, rfl⟩))))
  case call nnn =>
    obtain ⟨-, -, hpc⟩ | rfl := execCall_next hexec
    · exact .inr (.inr (.inr (.inl ⟨nnn, hpc⟩)))
    · exact .inl rfl
  case ret u =>
    obtain hpc | rfl := execRet_next hexec
    · exact .inr (.inr (.inr (.inr (.inr hpc))))
    · exact .inl rfl
  case seByte | sneByte | seReg | sneReg | skp | sknp =>
    cases hexec
    rw [State.skipIf_pc_eq]
    split <;> simp
  case drw | ldB | storeRegs | loadRegs =>
    obtain ⟨-, rfl⟩ | ⟨-, rfl⟩ := next_ite hexec
    · exact .inr (.inl rfl)
    · exact .inl rfl
  case rnd => cases hexec; exact .inr (.inl (by simp [State.npc]))
  all_goals cases hexec; exact .inr (.inl rfl)

/-- I stays, or takes one of the four computed values of R160 to R166. -/
theorem exec_i_cases {i : Instr} {s t : State} (hexec : exec i s = .next t) :
    t.i = s.i ∨ (∃ nnn, t.i = addrWord nnn) ∨ (∃ b, t.i = indexSum s.i b) ∨ (∃ b, t.i = glyphAddr b) ∨
    ∃ x : Nibble, s.i.toNat + x.toNat ≤ 0xFFF ∧ t.i = indexAfterBlock s.i x := by
  cases execEffect_of_exec hexec with
  | index hi =>
    obtain ⟨nnn, rfl⟩ | ⟨x, rfl | rfl | rfl⟩ := hi
    · cases hexec; exact .inr (.inl ⟨nnn, rfl⟩)
    · cases hexec; exact .inr (.inr (.inl ⟨_, rfl⟩))
    · cases hexec; exact .inr (.inr (.inr (.inl ⟨_, rfl⟩)))
    · obtain ⟨hin, rfl⟩ | ⟨-, rfl⟩ := next_ite hexec
      · exact .inr (.inr (.inr (.inr ⟨x, (s.inBounds_iff _).1 hin, rfl⟩)))
      · exact .inl rfl
  | storeBlock x =>
    obtain ⟨hin, rfl⟩ | ⟨-, rfl⟩ := next_ite hexec
    · exact .inr (.inr (.inr (.inr ⟨x, (s.inBounds_iff _).1 hin, rfl⟩)))
    · exact .inl rfl
  | call _ h | ret _ h | storeDigits _ h | clear _ h | draw _ _ _ h | keyWait _ h | delayTimer _ h | soundTimer _ h
  | other h | fault _ _ h => exact .inl (by rw [h])

/-- The stack stays, or one slot takes `npc` (R111). -/
theorem exec_stack_cases {i : Instr} {s t : State} (hexec : exec i s = .next t) :
    t.stack = s.stack ∨ ∃ hsp : s.sp.val < 16, t.stack = s.stack.set s.sp.val s.npc hsp := by
  obtain hst | ⟨nnn, rfl⟩ := (onlyCallAndRetUseStack i s t hexec).1
  · exact .inl hst
  · obtain ⟨hsp, hst, -⟩ | rfl := execCall_next hexec
    · exact .inr ⟨hsp, hst⟩
    · exact .inl rfl

/-- Memory stays, or takes bytes at I that all lie in the address space (R56, R57). -/
theorem exec_mem_cases {i : Instr} {s t : State} (hexec : exec i s = .next t) :
    t.mem = s.mem ∨
    ∃ bs, s.i.toNat + bs.length ≤ Config.memSize ∧ t.mem = Memory.writeBytes s.mem s.i.toNat bs := by
  cases execEffect_of_exec hexec with
  | storeDigits x =>
    obtain ⟨hin, rfl⟩ | ⟨-, rfl⟩ := next_ite hexec
    · rw [State.inBounds_iff] at hin
      exact .inr ⟨_, by rw [decimalDigits_length, Config.memSize]; omega, rfl⟩
    · exact .inl rfl
  | storeBlock x =>
    obtain ⟨hin, rfl⟩ | ⟨-, rfl⟩ := next_ite hexec
    · rw [State.inBounds_iff] at hin
      exact .inr ⟨_, by rw [s.regsUpTo_length, Config.memSize]; omega, rfl⟩
    · exact .inl rfl
  | call _ h | ret _ h | index _ h | clear _ h | draw _ _ _ h | keyWait _ h | delayTimer _ h | soundTimer _ h
  | other h | fault _ _ h => exact .inl (by rw [h])

/-- The two display instructions hand the command buffer over within their step; no other touches it (R33). -/
theorem exec_cb_cases {i : Instr} {s t : State} (hexec : exec i s = .next t) : t.cb = s.cb ∨ t.cb.valid = false := by
  cases execEffect_of_exec hexec with
  | clear u => cases hexec; exact .inr rfl
  | draw x y n =>
    obtain ⟨-, rfl⟩ | ⟨-, rfl⟩ := next_ite hexec
    · exact .inr rfl
    · exact .inl rfl
  | call _ h | ret _ h | index _ h | storeBlock _ h | storeDigits _ h | keyWait _ h | delayTimer _ h | soundTimer _ h
  | other h | fault _ _ h => exact .inl (by rw [h])

/-! ## The ranges of PC, I and the stack (R40) -/

/-- A sum on a PC that can be fetched from, wrapped or not. -/
theorem add_toNat_le_of_fetchable {pc : Word} (hpc : pc.toNat ≤ 0xFFE) (k : Word) :
    (pc + k).toNat ≤ 0xFFE + k.toNat := by
  rw [BitVec.toNat_add]; omega

/-- The highest PC is the highest target of `JP V0` (R113). -/
theorem exec_pc_le {i : Instr} {s t : State} (hexec : exec i s = .next t) (hpc : s.pc.toNat ≤ 0xFFE)
    (hstack : ∀ j : Fin 16, s.stack[j.val].toNat ≤ 0x1000) : t.pc.toNat ≤ 0x10FE := by
  obtain h | h | h | ⟨nnn, h⟩ | ⟨nnn, b, h⟩ | ⟨j, h⟩ := exec_pc_cases hexec <;> rw [h]
  · omega
  · exact (add_toNat_le_of_fetchable hpc 2).trans (by decide)
  · exact (add_toNat_le_of_fetchable hpc 4).trans (by decide)
  · rw [addrWord_toNat]; omega
  · rw [offsetTarget_toNat]; omega
  · have := hstack j; omega

theorem indexSum_toNat_lt (i : Word) (b : Byte) : (indexSum i b).toNat < 4096 := by
  rw [indexSum, BitVec.toNat_ofNat]; omega

theorem glyphAddr_toNat_le (b : Byte) : (glyphAddr b).toNat ≤ 75 := by
  have : (b &&& 0x0F).toNat ≤ 15 := by rw [BitVec.toNat_and]; exact Nat.and_le_right
  rw [glyphAddr, BitVec.toNat_ofNat]
  exact (Nat.mod_le _ _).trans (by rw [fontBase]; omega)

/-- The highest I stands after a block that ends at the highest address (R165, R166). -/
theorem exec_i_le {i : Instr} {s t : State} (hexec : exec i s = .next t) (hi : s.i.toNat ≤ 0x1000) :
    t.i.toNat ≤ 0x1000 := by
  obtain h | ⟨nnn, h⟩ | ⟨b, h⟩ | ⟨b, h⟩ | ⟨x, hx, h⟩ := exec_i_cases hexec <;> rw [h]
  · exact hi
  · rw [addrWord_toNat]; omega
  · exact (indexSum_toNat_lt s.i b).le
  · exact (glyphAddr_toNat_le b).trans (by omega)
  · rw [indexAfterBlock_toNat _ _ hx]; omega

/-- A return address is at most the address after the last word that can be fetched (R111). -/
theorem exec_stack_le {i : Instr} {s t : State} (hexec : exec i s = .next t) (hpc : s.pc.toNat ≤ 0xFFE)
    (hstack : ∀ j : Fin 16, s.stack[j.val].toNat ≤ 0x1000) (j : Fin 16) : t.stack[j.val].toNat ≤ 0x1000 := by
  obtain h | ⟨hsp, h⟩ := exec_stack_cases hexec <;> rw [h]
  · exact hstack j
  · rw [Vector.getElem_set]
    split
    · exact add_toNat_le_of_fetchable hpc 2
    · exact hstack j

theorem exec_rangesOk {i : Instr} {s t : State} (hexec : exec i s = .next t) (hpc : s.pc.toNat ≤ 0xFFE)
    (hs : s.rangesOk) : t.rangesOk := by
  obtain ⟨hi, -, hstack⟩ := hs
  exact ⟨exec_i_le hexec hi, exec_pc_le hexec hpc hstack, exec_stack_le hexec hpc hstack⟩

/-! ## The fault record (R32, R226) -/

/-- Outside `Halted` a sound record is an empty one. -/
theorem State.recordOk_iff_of_ne_halted {s : State} (hm : s.mode ≠ .halted) :
    s.recordOk ↔ s.faultKind = .none ∧ s.faultWord = 0 ∧ s.faultAddr = 0 := by
  simp [State.recordOk, hm]

theorem FaultEntry.recordOk {s t : State} {c : Cause} {w : Word} (h : FaultEntry s t c w) (hc : c ≠ .none) :
    t.recordOk := by
  rw [h]
  exact ⟨iff_of_true hc rfl, fun _ => rfl, fun hm => absurd rfl hm⟩

/-- An instruction that runs in `Running` keeps the record empty, or enters a fault. -/
theorem exec_recordOk {i : Instr} {s t : State} (hexec : exec i s = .next t) (hm : s.mode = .running)
    (hs : s.recordOk) : t.recordOk := by
  rw [State.recordOk_iff_of_ne_halted (by rw [hm]; nofun)] at hs
  cases execEffect_of_exec hexec with
  | fault c hc h => exact h.recordOk hc
  | call _ h | ret _ h | index _ h | storeBlock _ h | storeDigits _ h | clear _ h | draw _ _ _ h | keyWait _ h
  | delayTimer _ h | soundTimer _ h | other h =>
    rw [h, State.recordOk_iff_of_ne_halted (by simp [hm])]
    exact hs

/-! ## The canonical memory list (log entry 12) -/

theorem exec_mem_wf {i : Instr} {s t : State} (hexec : exec i s = .next t) (hs : Memory.wf s.mem = true) :
    Memory.wf t.mem = true := by
  obtain h | ⟨bs, hbs, h⟩ := exec_mem_cases hexec <;> rw [h]
  · exact hs
  · exact Memory.wf_writeBytes hs hbs

theorem State.hostLoad_mem_wf {s : State} (a : Addr) (d : Byte) (hs : Memory.wf s.mem = true) :
    Memory.wf (s.hostLoad a d).mem = true := Memory.wf_write d hs a.isLt

theorem State.keyEvent_mem (s : State) (k : Nibble) : (s.keyEvent k).mem = s.mem := by
  unfold State.keyEvent; split <;> rfl

theorem instrStep_mem_wf {s t : State} (h : instrStep s = .next t) (hs : Memory.wf s.mem = true) :
    Memory.wf t.mem = true := by
  obtain ⟨-, -, ⟨-, hr⟩ | ⟨w, -, -, hr⟩ | ⟨w, i, -, -, hr⟩⟩ | ⟨-, -, hr⟩ | ⟨-, hr⟩ | ⟨-, hr⟩ := instrStep_cases s <;>
    rw [hr] at h
  · cases h; exact hs
  · cases h; exact hs
  · exact exec_mem_wf h hs
  · cases h; exact hs
  · cases h; exact hs
  · cases h

/-- Settles O59: an instruction and the load port write inside the address space, a reset empties the list, and the other
steps do not touch memory. -/
theorem everyStepKeepsMemoryCanonical : Obligations.EveryStepKeepsMemoryCanonical := by
  intro s t hs hstep
  rw [← s.nextEvent_mem] at hs
  obtain ⟨-, h⟩ | ⟨-, rfl⟩ | ⟨k, -, rfl⟩ | ⟨-, rfl⟩ | ⟨a, d, -, -, rfl⟩ | ⟨b, -, rfl⟩ := step_cases hstep
  · exact instrStep_mem_wf h hs
  · exact hs
  · rw [State.keyEvent_mem]; exact hs
  · exact Memory.wf_nil
  · exact State.hostLoad_mem_wf a d hs
  · exact hs

/-! ## The invariant -/

/-- Settles O58: every piece the invariant reads is 0 or empty after reset, but PC = 0x200. -/
theorem invariantHoldsAtReset : Obligations.InvariantHoldsAtReset := by
  have hstack (j : Fin 16) : State.reset.stack[j.val].toNat ≤ 0x1000 := by simp [State.reset]
  exact ⟨⟨by decide, by decide, hstack⟩, by simp [State.recordOk, State.reset], rfl, Memory.wf_nil⟩

/-- Fault entry keeps the invariant: PC stays, and is what the record holds (R226). -/
theorem FaultEntry.inv {s t : State} {c : Cause} {w : Word} (h : FaultEntry s t c w) (hc : c ≠ .none) (hs : s.Inv) :
    t.Inv := by
  have hrecord := h.recordOk hc
  obtain ⟨hranges, -, hrest⟩ := hs
  rw [h] at hrecord ⊢
  exact ⟨hranges, hrecord, hrest⟩

theorem exec_inv {i : Instr} {s t : State} (hexec : exec i s = .next t) (hm : s.mode = .running)
    (hpc : s.pc.toNat ≤ 0xFFE) (hs : s.Inv) : t.Inv := by
  obtain ⟨hranges, hrecord, hcb, hmem⟩ := hs
  refine ⟨exec_rangesOk hexec hpc hranges, exec_recordOk hexec hm hrecord, ?_, exec_mem_wf hexec hmem⟩
  obtain h | h := exec_cb_cases hexec
  · rw [h, hcb]
  · exact h

/-- An instruction that runs was fetched, so its PC is at most 0xFFE (R53). -/
theorem instrStep_inv {s t : State} (h : instrStep s = .next t) (hs : s.Inv) : t.Inv := by
  obtain ⟨hm, -, ⟨-, hr⟩ | ⟨w, -, -, hr⟩ | ⟨w, i, hf, -, hr⟩⟩ | ⟨-, -, hr⟩ | ⟨-, hr⟩ | ⟨-, hr⟩ := instrStep_cases s <;>
    rw [hr] at h
  · cases h; exact FaultEntry.inv (c := .memoryOutOfBounds) rfl nofun hs
  · cases h; exact FaultEntry.inv (c := .unimplementedOpcode) rfl nofun hs
  · exact exec_inv h hm ((s.fetch_eq_some w).1 hf).1 hs
  · cases h; exact hs
  · cases h; exact hs
  · cases h

/-- A key event ends a wait, in which the record is empty as it is in `Running` (R204). -/
theorem State.keyEvent_inv {s : State} (k : Nibble) (hs : s.Inv) : (s.keyEvent k).Inv := by
  by_cases hm : s.mode = .waitingForKey
  · rw [s.keyEvent_waiting k hm]
    obtain ⟨hranges, hrecord, hrest⟩ := hs
    rw [State.recordOk_iff_of_ne_halted (by rw [hm]; nofun)] at hrecord
    exact ⟨hranges, (State.recordOk_iff_of_ne_halted (by simp)).2 hrecord, hrest⟩
  · rwa [s.keyEvent_dropped k hm]

theorem State.hostLoad_inv {s : State} (a : Addr) (d : Byte) (hs : s.Inv) : (s.hostLoad a d).Inv := by
  obtain ⟨hranges, hrecord, hcb, hmem⟩ := hs
  exact ⟨hranges, hrecord, hcb, State.hostLoad_mem_wf a d hmem⟩

/-- Settles O57, one lemma per atomic step of R234; a tick and a change of `run` touch nothing the invariant reads, and a
reset leaves the state of O58 there. -/
theorem everyStepKeepsInvariant : Obligations.EveryStepKeepsInvariant := by
  intro s t hs hstep
  have hs' : s.nextEvent.2.Inv := by rw [s.nextEvent_snd]; exact hs
  obtain ⟨-, h⟩ | ⟨-, rfl⟩ | ⟨k, -, rfl⟩ | ⟨-, rfl⟩ | ⟨a, d, -, -, rfl⟩ | ⟨b, -, rfl⟩ := step_cases hstep
  · exact instrStep_inv h hs'
  · exact hs'
  · exact State.keyEvent_inv k hs'
  · exact invariantHoldsAtReset
  · exact State.hostLoad_inv a d hs'
  · exact hs'

end Sys2Proof.Machine
end

section
/-! PROOFS. The statements on memory (spec/20_memory.md R50 to R64): who writes it, that a store is seen by the very next
fetch, and that a fetch outside it faults. -/

namespace Sys2Proof.Machine

/-! ## Who writes memory (R50) -/

/-- Settles O24: the two stores own memory. -/
theorem onlyStoresWriteMemory : Obligations.OnlyStoresWriteMemory := by
  intro i s t hexec
  cases execEffect_of_exec hexec with
  | storeDigits x _ => exact .inr (.inl ⟨x, rfl⟩)
  | storeBlock x _ => exact .inr (.inr ⟨x, rfl⟩)
  | call _ h | ret _ h | index _ h | clear _ h | draw _ _ _ h | keyWait _ h | delayTimer _ h | soundTimer _ h
  | other h | fault _ _ h => exact .inl (by rw [h])

/-! ## A store over the next instruction (R64) -/

/-- A block that lies in memory is stored, with I after it and PC at the next instruction (R165). -/
theorem exec_storeRegs_of_le {x : Nibble} {s : State} (h : s.i.toNat + x.toNat ≤ 0xFFF) :
    exec (.storeRegs x) s = .next { s.storeAtI (s.regsUpTo x) with i := indexAfterBlock s.i x }.advance :=
  if_pos ((s.inBounds_iff _).2 h)

/-- After the registers V0 to Vx are stored at I, the byte at I + k is Vk (R165). -/
theorem State.readByte_storeAtI_regsUpTo (s : State) {x k : Nibble} (h : k.toNat ≤ x.toNat) :
    (s.storeAtI (s.regsUpTo x)).readByte (s.i.toNat + k.toNat) = s.getV k := by
  have hk : k.toNat < (s.regsUpTo x).length := by rw [s.regsUpTo_length]; omega
  rw [s.readByte_storeAtI_inside _ _ hk, s.regsUpTo_getElem x k hk]

/-- Settles O23: the address after the instruction does not wrap, so the fetch reads the first two bytes of the block. -/
theorem storeIsSeenByNextFetch : Obligations.StoreIsSeenByNextFetch := by
  intro x s hx hroom hi
  have hindex : s.i.toNat = s.pc.toNat + 2 := by bv_omega
  have hhigh : (s.storeAtI (s.regsUpTo x)).readByte s.i.toNat = s.getV 0 :=
    s.readByte_storeAtI_regsUpTo (k := 0) (Nat.zero_le _)
  have hlow : (s.storeAtI (s.regsUpTo x)).readByte (s.i.toNat + 1) = s.getV 1 :=
    s.readByte_storeAtI_regsUpTo (k := 1) hx
  have hfetchable : (s.pc + 2).toNat ≤ 0xFFE := by rw [← hi]; omega
  rw [hi] at hhigh hlow
  exact ⟨_, exec_storeRegs_of_le (by omega), (State.fetch_eq_some _ _).2 ⟨hfetchable, congrArg₂ _ hhigh hlow⟩⟩

/-! ## A fetch outside memory (R53) -/

/-- Settles O39: the fetch is the first stage of the instruction step, and it answers no word there. -/
theorem fetchOutOfBoundsFaults : Obligations.FetchOutOfBoundsFaults := by
  intro s hevent hmode hrun hpc
  have hfetch : (afterEvent s).fetch = none := (State.fetch_eq_none _).2 hpc
  exact ⟨_, (step_eq s hevent).trans (instrStep_unfetchable _ hmode hrun hfetch), rfl⟩

end Sys2Proof.Machine
end

section
/-! PROOFS. The statements on the encoding (spec/30_encoding.md R80 to R91): the decoder and the opcode map of R86 agree, the
decoder and the encoder are inverse to each other, and the words of R90 are all that decodes to nothing. -/

namespace Sys2Proof.Machine

/-! ## A word its family and key rebuild (R82, R84) -/

theorem formatA_of_family {w : Word} {f : Nibble} (hf : Field.family w = f) : formatA f (Field.nnn w) = w := by
  rw [← hf, formatA_fields]

theorem formatXK_of_family_kk {w : Word} {f : Nibble} {kk : Byte} (hf : Field.family w = f) (hk : Field.kk w = kk) :
    formatXK f (Field.x w) kk = w := by
  rw [← hf, ← hk, formatXK_fields]

theorem formatXY_of_family_n {w : Word} {f n : Nibble} (hf : Field.family w = f) (hn : Field.n w = n) :
    formatXY f (Field.x w) (Field.y w) n = w := by
  rw [← hf, ← hn, formatXY_fields]

/-! ## The encoder after the decoder, one lemma per dispatch (R84, R86) -/

theorem encode_of_decode0 {w : Word} {i : Instr} (hf : Field.family w = 0x0) (h : decode0 w = some i) :
    encode i = w := by
  unfold decode0 at h; split at h <;> cases h
  all_goals exact formatXK_of_family_kk hf ‹_›

theorem encode_of_decode8 {w : Word} {i : Instr} (hf : Field.family w = 0x8) (h : decode8 w = some i) :
    encode i = w := by
  unfold decode8 at h; split at h <;> cases h
  all_goals exact formatXY_of_family_n hf ‹_›

theorem encode_of_decodeE {w : Word} {i : Instr} (hf : Field.family w = 0xE) (h : decodeE w = some i) :
    encode i = w := by
  unfold decodeE at h; split at h <;> cases h
  all_goals exact formatXK_of_family_kk hf ‹_›

theorem encode_of_decodeF {w : Word} {i : Instr} (hf : Field.family w = 0xF) (h : decodeF w = some i) :
    encode i = w := by
  unfold decodeF at h; split at h <;> cases h
  all_goals exact formatXK_of_family_kk hf ‹_›

/-- The branches of the top nibble: four dispatch again, the others are laid out in format A, XK or XY (R82). -/
theorem encode_of_decodeOpt {w : Word} {i : Instr} (h : decodeOpt w = some i) : encode i = w := by
  unfold decodeOpt at h; split at h
  case h_1 hf => exact encode_of_decode0 hf h
  case h_9 hf => exact encode_of_decode8 hf h
  case h_15 hf => exact encode_of_decodeE hf h
  case h_16 hf => exact encode_of_decodeF hf h
  all_goals cases h
  case h_2 hf | h_3 hf | h_11 hf | h_12 hf => exact formatA_of_family hf
  case h_4 hf | h_5 hf | h_7 hf | h_8 hf | h_13 hf => exact formatXK_of_family_kk hf rfl
  case h_6 hf | h_10 hf | h_14 hf => exact formatXY_of_family_n hf rfl

/-- Settles O52: every branch of the decoder keeps all fields of its word. -/
theorem encodeInvertsDecode : Obligations.EncodeInvertsDecode := fun w i h =>
  encode_of_decodeOpt ((decode_ok_iff w i).1 h)

/-! ## What a row of the opcode map keys on (R84, R86) -/

theorem selects_iff (r : OpcodeRow) (w : Word) : r.selects w = true ↔ w &&& r.mask = r.value := beq_iff_eq

theorem family_of_masked {w v : Word} (h : w &&& 0xF000 = v) : Field.family w = Field.family v := by
  rw [← h, (mask_family w _).2 rfl, Field.family_formatXY]

theorem family_n_of_masked {w v : Word} (h : w &&& 0xF00F = v) :
    Field.family w = Field.family v ∧ Field.n w = Field.n v := by
  rw [← h, (mask_family_n w _ _).2 ⟨rfl, rfl⟩, Field.family_formatXY, Field.n_formatXY]
  exact ⟨rfl, rfl⟩

theorem family_kk_of_masked {w v : Word} (h : w &&& 0xF0FF = v) :
    Field.family w = Field.family v ∧ Field.kk w = Field.kk v := by
  rw [← h, (mask_family_kk w _ _).2 ⟨rfl, rfl⟩, Field.family_formatXK, Field.kk_formatXK]
  exact ⟨rfl, rfl⟩

theorem opcodeMap_mask : ∀ r ∈ opcodeMap, r.mask = 0xF000 ∨ r.mask = 0xF00F ∨ r.mask = 0xF0FF := by decide

/-- A word of the family of a row without secondary key reaches that row's branch of the decoder. -/
theorem decodeOpt_of_row_family {r : OpcodeRow} (hr : r ∈ opcodeMap) (hm : r.mask = 0xF000) {w : Word}
    (hf : Field.family w = Field.family r.value) : decodeOpt w = some (r.build w) := by
  fin_cases hr <;> simp at hm
  all_goals rw [decodeOpt, hf]; rfl

/-- A word with the family and n of a row keyed on n (family 0x8) reaches that row's branch. -/
theorem decodeOpt_of_row_n {r : OpcodeRow} (hr : r ∈ opcodeMap) (hm : r.mask = 0xF00F) {w : Word}
    (hf : Field.family w = Field.family r.value) (hn : Field.n w = Field.n r.value) :
    decodeOpt w = some (r.build w) := by
  fin_cases hr <;> simp at hm
  all_goals rw [decodeOpt, decode8, hf, hn]; rfl

/-- A word with the family and kk of a row keyed on kk (families 0x0, 0xE, 0xF) reaches that row's branch. -/
theorem decodeOpt_of_row_kk {r : OpcodeRow} (hr : r ∈ opcodeMap) (hm : r.mask = 0xF0FF) {w : Word}
    (hf : Field.family w = Field.family r.value) (hk : Field.kk w = Field.kk r.value) :
    decodeOpt w = some (r.build w) := by
  fin_cases hr <;> simp at hm
  all_goals rw [decodeOpt, decode0, decodeE, decodeF, hf, hk]; rfl

/-- Every word a row selects decodes to what the row builds (R86). -/
theorem opcodeMap_encodes {r : OpcodeRow} (hr : r ∈ opcodeMap) : Encodes r.mask r.value r.build := by
  intro w hw
  rw [decode_ok_iff]
  obtain hm | hm | hm := opcodeMap_mask r hr
  all_goals rw [hm] at hw
  · exact decodeOpt_of_row_family hr hm (family_of_masked hw)
  · obtain ⟨hf, hn⟩ := family_n_of_masked hw
    exact decodeOpt_of_row_n hr hm hf hn
  · obtain ⟨hf, hk⟩ := family_kk_of_masked hw
    exact decodeOpt_of_row_kk hr hm hf hk

/-! ## The decoder after the encoder -/

open Laws.OpcodeRow in
/-- Every instruction has its row. -/
theorem encode_selects_row : ∀ i : Instr, Statement i
  | .cls u => cls u | .ret u => ret u | .jp nnn => jp nnn | .call nnn => call nnn
  | .seByte x kk => seByte x kk | .sneByte x kk => sneByte x kk | .seReg x y u => seReg x y u
  | .ldByte x kk => ldByte x kk | .addByte x kk => addByte x kk | .ldReg x y => ldReg x y
  | .orReg x y => orReg x y | .andReg x y => andReg x y | .xorReg x y => xorReg x y
  | .addReg x y => addReg x y | .subReg x y => subReg x y | .shr x u => shr x u
  | .subnReg x y => subnReg x y | .shl x u => shl x u | .sneReg x y u => sneReg x y u
  | .ldI nnn => ldI nnn | .jpV0 nnn => jpV0 nnn | .rnd x kk => rnd x kk | .drw x y n => drw x y n
  | .skp x => skp x | .sknp x => sknp x | .ldVxDt x => ldVxDt x | .ldVxK x => ldVxK x
  | .ldDtVx x => ldDtVx x | .ldStVx x => ldStVx x | .addI x => addI x | .ldF x => ldF x
  | .ldB x => ldB x | .storeRegs x => storeRegs x | .loadRegs x => loadRegs x

theorem decode_encode (i : Instr) : decode (encode i) = .ok i := by
  obtain ⟨r, hr, hsel, hbuild⟩ := encode_selects_row i
  rw [opcodeMap_encodes hr _ ((selects_iff r _).1 hsel), hbuild]

/-- The two bytes put together are the word, and no more are taken (R54, R80). -/
theorem decodeBytes_encodeBytes_append (i : Instr) (rest : List Byte) :
    decodeBytes (encodeBytes i ++ rest) = .ok (i, rest) := by
  simp only [encodeBytes, List.cons_append, List.nil_append, decodeBytes, wordOfBytes_split, decode_encode]

/-- Settles O51: the instruction's word selects its row, and the decoder follows the rows. -/
theorem decodeInvertsEncode : Obligations.DecodeInvertsEncode := fun i rest =>
  ⟨decode_encode i, decodeBytes_encodeBytes_append i rest⟩

/-! ## The unimplemented words (R90) -/

theorem decode_eq_unimplemented_iff (w : Word) : decode w = .error (.unimplementedOpcode w) ↔ decodeOpt w = none :=
  ⟨decode_error w _, fun h => by rw [decode, h]⟩

theorem decode0_eq_none_iff (w : Word) : decode0 w = none ↔ Field.kk w ∉ [0xE0#8, 0xEE#8] := by
  unfold decode0; split <;> simp_all

/-- The nine keys of family 0x8 and the seven of R90 are all sixteen nibbles. -/
theorem decode8_eq_none_iff (w : Word) :
    decode8 w = none ↔ Field.n w ∈ [0x8#4, 0x9#4, 0xA#4, 0xB#4, 0xC#4, 0xD#4, 0xF#4] := by
  unfold decode8; split <;> simp_all
  bv_omega

theorem decodeE_eq_none_iff (w : Word) : decodeE w = none ↔ Field.kk w ∉ [0x9E#8, 0xA1#8] := by
  unfold decodeE; split <;> simp_all

theorem decodeF_eq_none_iff (w : Word) : decodeF w = none ↔
    Field.kk w ∉ [0x07#8, 0x0A#8, 0x15#8, 0x18#8, 0x1E#8, 0x29#8, 0x33#8, 0x55#8, 0x65#8] := by
  unfold decodeF; split <;> simp_all

/-- Only the four families with a secondary key can miss: the other twelve decode, and there are no more than sixteen. -/
theorem decodeOpt_eq_none_iff (w : Word) : decodeOpt w = none ↔
    (Field.family w = 0x0 ∧ decode0 w = none) ∨ (Field.family w = 0x8 ∧ decode8 w = none) ∨
      (Field.family w = 0xE ∧ decodeE w = none) ∨ (Field.family w = 0xF ∧ decodeF w = none) := by
  unfold decodeOpt; split <;> simp_all
  bv_omega

/-- Settles O54: the missing keys of each of the four dispatches. -/
theorem unimplementedWordsAreExactlyThese : Obligations.UnimplementedWordsAreExactlyThese := by
  intro w
  rw [decode_eq_unimplemented_iff, decodeOpt_eq_none_iff, decode0_eq_none_iff, decode8_eq_none_iff,
    decodeE_eq_none_iff, decodeF_eq_none_iff]

/-! ## The opcode map (R86) -/

/-- A word that decodes is the word of its instruction, which selects that instruction's row. -/
theorem decodeOpt_eq_none_of_unselected {w : Word} (h : ∀ r ∈ opcodeMap, r.selects w = false) : decodeOpt w = none := by
  by_contra hne
  obtain ⟨i, hi⟩ := Option.ne_none_iff_exists'.1 hne
  obtain ⟨r, hr, hsel, -⟩ := encode_selects_row i
  rw [encode_of_decodeOpt hi, h r hr] at hsel
  exact Bool.noConfusion hsel

/-- Two rows that select one word have match values that agree where both masks look. -/
theorem value_and_mask_of_selects {r r' : OpcodeRow} {w : Word} (h : r.selects w = true)
    (h' : r'.selects w = true) : r.value &&& r'.mask = r'.value &&& r.mask := by
  rw [← (selects_iff r w).1 h, ← (selects_iff r' w).1 h', BitVec.and_assoc, BitVec.and_comm r.mask, BitVec.and_assoc]

/-- No two of the 34 rows have such match values (R86, "pairwise disjoint"). -/
theorem opcodeMap_values_disagree : opcodeMap.Pairwise fun r r' => r.value &&& r'.mask ≠ r'.value &&& r.mask := by decide

/-- Settles O53: the decoder follows the rows, a word that decodes selects one, and match values keep rows apart. -/
theorem decoderAgreesWithOpcodeMap : Obligations.DecoderAgreesWithOpcodeMap := by
  refine ⟨fun w r hr hsel => ?_, fun w h => ?_, fun w => ?_⟩
  · exact opcodeMap_encodes hr w ((selects_iff r w).1 hsel)
  · exact (decode_eq_unimplemented_iff w).2 (decodeOpt_eq_none_of_unselected h)
  · exact opcodeMap_values_disagree.imp fun hne ⟨h, h'⟩ => hne (value_and_mask_of_selects h h')

/-! ## Ignored bits and words written out (R85, R89) -/

/-- Settles O55: no meaning reads its ignored bits, but `RET` for the word of its fault. -/
theorem ignoredBitsDoNotMatter : Obligations.IgnoredBitsDoNotMatter := by
  intro x y u u' s
  refine ⟨rfl, rfl, rfl, rfl, rfl, fun hsp => ?_⟩
  simp only [exec, execRet, s.pop_eq_some (Nat.pos_of_ne_zero hsp)]

/-- Settles O56: each word is read by evaluation. -/
theorem specWordsDecode : Obligations.SpecWordsDecode :=
  ⟨rfl, rfl, rfl, rfl, rfl, rfl, rfl, rfl, rfl, rfl⟩

end Sys2Proof.Machine
end

section
/-! PROOFS. The statements on control flow (spec/40_control_flow.md R110 to R120): jumps and skips, `CALL` and `RET` and the
two done in sequence, what an instruction step runs, and where a step stops. -/

namespace Sys2Proof.Machine

/-! ## What the jumps, skips and subroutine instructions answer (R110 to R117) -/

/-- The rows of the opcode map, numbered as R86 lists them, are what the decoder follows. -/
theorem row_encodes (k : Nat) (hk : k < opcodeMap.length) :
    Encodes opcodeMap[k].mask opcodeMap[k].value opcodeMap[k].build := opcodeMap_encodes (List.getElem_mem hk)

theorem framePc_jumpTo (s : State) (w : Word) : FramePc s (s.jumpTo w) := ⟨rfl, fun _ => rfl⟩

/-- A skip whose condition says `p` goes past the next instruction exactly where `p` holds (R120). -/
theorem State.skipIf_effect (s : State) {c : Bool} {p : Prop} [Decidable p] (h : c = true ↔ p) :
    (s.skipIf c).pc = (if p then s.pc + 4 else s.pc + 2) ∧ FramePc s (s.skipIf c) :=
  ⟨by simp only [State.skipIf_pc_eq, h], rfl, fun _ => rfl⟩

theorem exec_call_of_lt {s : State} (nnn : Addr) (h : s.sp.val < 16) :
    exec (.call nnn) s =
      .next { s with stack := s.stack.set s.sp.val s.npc h, sp := ⟨s.sp.val + 1, by omega⟩, pc := addrWord nnn } := by
  simp only [exec, execCall, s.push_eq_some _ h, State.jumpTo]

theorem exec_call_of_full {s : State} (nnn : Addr) (h : s.sp.val = 16) :
    exec (.call nnn) s = .next (s.raise .stackOverflow (formatA 0x2 nnn)) := by
  simp only [exec, execCall, s.push_eq_none _ h, encode]

theorem exec_ret_of_pos {s : State} (u : Nibble) (h : 0 < s.sp.val) :
    exec (.ret u) s =
      .next { s with sp := ⟨s.sp.val - 1, by omega⟩, pc := s.stack[s.sp.val - 1]'(by omega) } := by
  simp only [exec, execRet, s.pop_eq_some h, State.jumpTo]

theorem exec_ret_of_empty {s : State} (u : Nibble) (h : s.sp.val = 0) :
    exec (.ret u) s = .next (s.raise .stackUnderflow (formatXK 0x0 u 0xEE)) := by
  simp only [exec, execRet, s.pop_eq_none h, encode]

/-- Reading the stack after a push (R25). -/
theorem stack_set_getElem (stack : Vector Word 16) {k : Nat} (hk : k < 16) (w : Word) (j : Fin 16) :
    (stack.set k w hk)[j.val] = if j.val = k then w else stack[j.val] := by
  simp only [Vector.getElem_set, eq_comm]

/-! ## Subroutines -/

/-- Settles O2: a slot is left or none is. -/
theorem callPushesReturnAddress : Obligations.CallPushesReturnAddress := by
  refine ⟨row_encodes 3 (by decide), fun nnn s => ?_⟩
  by_cases hsp : s.sp.val = 16
  · exact ⟨_, exec_call_of_full nnn hsp, by rw [if_pos hsp]; rfl⟩
  · have hroom : s.sp.val < 16 := by omega
    refine ⟨_, exec_call_of_lt nnn hroom, ?_⟩
    rw [if_neg hsp]
    exact ⟨rfl, addrWord_toNat nnn, stack_set_getElem s.stack hroom s.npc, rfl, fun _ => rfl⟩

/-- Settles O4: the stack is empty or not. -/
theorem retPopsIntoPc : Obligations.RetPopsIntoPc := by
  refine ⟨row_encodes 1 (by decide), fun u s => ?_⟩
  by_cases hsp : s.sp.val = 0
  · exact ⟨_, exec_ret_of_empty u hsp, by rw [dif_pos hsp]; rfl⟩
  · refine ⟨_, exec_ret_of_pos u (Nat.pos_of_ne_zero hsp), ?_⟩
    rw [dif_neg hsp]
    exact ⟨rfl, rfl, rfl, fun _ => rfl⟩

theorem execAll_cons {i : Instr} {is : List Instr} {s t : State} (h : exec i s = .next t) :
    execAll (i :: is) s = execAll is t := by
  simp only [execAll, h]

/-- `CALL`s for which the stack has room raise SP by their number and stay in the mode (R111). -/
theorem execAll_calls (targets : List Addr) (s : State) (h : s.sp.val + targets.length ≤ 16) :
    ∃ t, execAll (targets.map .call) s = .next t ∧ t.sp.val = s.sp.val + targets.length ∧ t.mode = s.mode := by
  induction targets generalizing s with
  | nil => exact ⟨s, rfl, rfl, rfl⟩
  | cons nnn targets ih =>
    rw [List.length_cons] at h
    obtain ⟨s₁, hcall, hsp₁, hmode₁⟩ : ∃ t, exec (.call nnn) s = .next t ∧ t.sp.val = s.sp.val + 1 ∧ t.mode = s.mode :=
      ⟨_, exec_call_of_lt nnn (by omega), rfl, rfl⟩
    obtain ⟨t, hrun, hsp, hmode⟩ := ih s₁ (by omega)
    exact ⟨t, (execAll_cons hcall).trans hrun, by rw [List.length_cons]; omega, hmode.trans hmode₁⟩

/-- Settles O3: sixteen calls fill the empty stack, and a full one overflows. -/
theorem sixteenCallsThenOverflow : Obligations.SixteenCallsThenOverflow := by
  intro s targets hempty hlen
  obtain ⟨t, hrun, hsp, hmode⟩ := execAll_calls targets s (by omega)
  have hfull : t.sp.val = 16 := by omega
  exact ⟨t, hrun, hfull, hmode, fun nnn => ⟨_, exec_call_of_full nnn hfull, rfl⟩⟩

/-- Settles O5: `RET` reads the slot that `CALL` wrote. -/
theorem callThenRetRestores : Obligations.CallThenRetRestores := by
  intro nnn u s hsp
  refine ⟨_, (execAll_cons (exec_call_of_lt nnn hsp)).trans (execAll_cons (exec_ret_of_pos u (Nat.succ_pos _))),
    ?_, stack_set_getElem s.stack hsp s.npc, rfl, fun _ => rfl⟩
  exact Vector.getElem_set_self hsp

/-! ## Jumps and skips -/

/-- Settles O1: the target is nnn as a number, above 0xFFE only as 0xFFF. -/
theorem jumpSetsOnlyPc : Obligations.JumpSetsOnlyPc := by
  refine ⟨row_encodes 2 (by decide), fun nnn s => ?_⟩
  refine ⟨_, rfl, addrWord_toNat nnn, framePc_jumpTo s _, ?_⟩
  rw [State.fetch_eq_none, State.jumpTo_pc, addrWord_toNat]
  bv_omega

/-- Settles O6: the sum does not wrap. -/
theorem jumpOffsetIsNotMasked : Obligations.JumpOffsetIsNotMasked := by
  refine ⟨row_encodes 20 (by decide), fun nnn s => ?_⟩
  refine ⟨_, rfl, offsetTarget_toNat nnn _, framePc_jumpTo s _, ?_⟩
  rw [State.fetch_eq_none, State.jumpTo_pc, offsetTarget_toNat]

/-- Settles O7: both are skips, each on its own comparison. -/
theorem skipsCompareByte : Obligations.SkipsCompareByte := by
  refine ⟨row_encodes 4 (by decide), row_encodes 5 (by decide), fun x kk s => ?_⟩
  exact ⟨⟨_, rfl, s.skipIf_effect beq_iff_eq⟩, ⟨_, rfl, s.skipIf_effect bne_iff_ne⟩⟩

/-- Settles O8: both are skips on their comparison, and neither reads bits 3:0. -/
theorem skipsCompareRegisters : Obligations.SkipsCompareRegisters := by
  refine ⟨row_encodes 6 (by decide), row_encodes 18 (by decide), fun x y u s => ?_⟩
  exact ⟨⟨_, rfl, s.skipIf_effect beq_iff_eq⟩, ⟨_, rfl, s.skipIf_effect bne_iff_ne⟩⟩

/-! ## The instruction step (R118) -/

/-- What falls in `Running` with `run` = 1 and nothing from outside (log entry 2). -/
theorem State.nextEvent_free_running {s : State} (ho : s.outside = []) (hm : s.mode = .running) (hr : s.run = true) :
    s.nextEvent = if s.dt = 0 ∧ s.st = 0 then (.instr, s)
      else (if Config.tickFalls s.draws = true then .tick else .instr, { s with draws := s.draws + 1 }) := by
  simp [State.nextEvent, ho, State.freeEvent, hm, hr, State.timersIdle]

/-- Settles O50: the fetch reads the two bytes, and taking an event leaves them, the mode and `run` as they are. -/
theorem stepRunsDecodedInstruction : Obligations.StepRunsDecodedInstruction := by
  intro s i hm hr hpc hdecode
  have hfetch : s.fetch = some (wordOfBytes (s.readByte s.pc.toNat) (s.readByte (s.pc.toNat + 1))) :=
    (State.fetch_eq_some s _).2 ⟨hpc, rfl⟩
  refine ⟨fun rest ho => ?_, fun ho => ?_⟩
  · rw [step_cons s ho]
    exact instrStep_exec { s with outside := rest } i hm hr hfetch hdecode
  · rw [step, State.nextEvent_free_running ho hm hr]
    by_cases hidle : s.dt = 0 ∧ s.st = 0
    · rw [if_pos hidle, if_pos hidle]
      exact instrStep_exec s i hm hr hfetch hdecode
    · rw [if_neg hidle, if_neg hidle]
      by_cases htick : Config.tickFalls s.draws = true
      · rw [if_pos htick, if_pos htick]; rfl
      · rw [if_neg htick, if_neg htick]
        exact instrStep_exec { s with draws := s.draws + 1 } i hm hr hfetch hdecode

/-! ## Where a step stops (log entries 6 and 7) -/

/-- An instruction step stops in `Halted` alone: an instruction itself always answers a next state. -/
theorem instrStep_stops (s : State) :
    (∃ t, instrStep s = .next t ∧ s.mode ≠ .halted) ∨
    (instrStep s = .fault (.halted s.faultKind) ∧ s.mode = .halted) := by
  obtain ⟨hm, -, ⟨-, h⟩ | ⟨w, -, -, h⟩ | ⟨w, i, -, -, h⟩⟩ | ⟨hm, -, h⟩ | ⟨hm, h⟩ | ⟨hm, h⟩ := instrStep_cases s
  · exact .inl ⟨_, h, by simp [hm]⟩
  · exact .inl ⟨_, h, by simp [hm]⟩
  · obtain ⟨t, ht, -⟩ := exec_cases i s
    exact .inl ⟨t, h.trans ht, by simp [hm]⟩
  · exact .inl ⟨_, h, by simp [hm]⟩
  · exact .inl ⟨_, h, by simp [hm]⟩
  · exact .inr ⟨h, hm⟩

theorem eventStep_eq_fault_iff (e : Event) (s : State) (f : Fault) :
    eventStep e s = .fault f ↔ s.mode = .halted ∧ e = .instr ∧ f = .halted s.faultKind := by
  cases e with
  | instr => obtain ⟨t, h, hm⟩ | ⟨h, hm⟩ := instrStep_stops s <;> simp [eventStep, h, hm, eq_comm]
  | load a d => cases hr : s.run <;> simp [eventStep, loadStep, hr]
  | tick | key | reset | run => simp [eventStep]

theorem eventStep_eq_refused_iff (e : Event) (s : State) (r : Refusal) :
    eventStep e s = .refused r ↔ s.run = true ∧ r = .loadWhileRunning ∧ ∃ a d, e = .load a d := by
  cases e with
  | instr => obtain ⟨t, h, hm⟩ | ⟨h, hm⟩ := instrStep_stops s <;> simp [eventStep, h]
  | load a d => cases hr : s.run <;> simp [eventStep, loadStep, hr, eq_comm]
  | tick | key | reset | run => simp [eventStep]

/-- A load write falls next exactly where the outside world's list says so (log entry 6). -/
theorem State.nextEvent_eq_load_iff (s : State) (a : Addr) (d : Byte) :
    s.nextEvent.1 = .load a d ↔ ∃ rest, s.outside = .load a d :: rest :=
  ⟨fun h => State.outside_of_nextEvent h nofun nofun nofun, fun ⟨_, h⟩ => by rw [State.nextEvent_cons s h]⟩

/-- Settles O42: the stops of the event's step, on the state without the event. -/
theorem stepStopsOnlyHere : Obligations.StepStopsOnlyHere := by
  intro s
  refine ⟨fun f => ?_, fun r => ?_⟩
  · rw [step, eventStep_eq_fault_iff, State.nextEvent_mode, State.nextEvent_faultKind]
  · simp only [step, eventStep_eq_refused_iff, State.nextEvent_run, State.nextEvent_eq_load_iff]

end Sys2Proof.Machine
end

section
/-! PROOFS. The statements on the ALU (spec/41_alu.md R130 to R142): each instruction writes one register, or a flag and then
a result, and goes on to the next instruction in line. -/

namespace Sys2Proof.Machine

/-! ## The two kinds of write an ALU instruction makes (R142) -/

/-- One register written: the others, VF among them, and everything but V and PC are as before. -/
theorem State.setV_advance_effect (s : State) (x : Nibble) (b : Byte) :
    (∀ r, r ≠ x → (s.setV x b).advance.getV r = s.getV r) ∧ (s.setV x b).advance.pc = s.pc + 2 ∧
      FrameVPc s (s.setV x b).advance :=
  ⟨fun r hr => (s.getV_setV x r b).trans (if_neg hr), rfl, rfl, fun _ => rfl⟩

theorem State.setV_advance_getV_self (s : State) (x : Nibble) (b : Byte) : (s.setV x b).advance.getV x = b :=
  (s.getV_setV x x b).trans (if_pos rfl)

/-- The flag says `p` and the byte is `result` as a number: the effect of a flag-writing instruction, for x = 0xF too. -/
theorem State.setFlagThenV_advance_effect (s : State) (x : Nibble) {c : Bool} {p : Prop} [Decidable p] {b : Byte}
    {result : Nat} (hc : c = true ↔ p) (hb : b.toNat = result) :
    FlagAndResult s (s.setFlagThenV c x b).advance x p result := by
  refine ⟨?_, fun hx => ?_, fun r hr hrF => ?_, rfl, rfl, fun _ => rfl⟩
  · rw [State.advance_getV, State.getV_setFlagThenV, if_pos rfl, hb]
  · rw [State.advance_getV, State.getV_setFlagThenV, flagReg, if_neg hx.symm, if_pos rfl, flagByte]
    simp only [hc]
  · rw [State.advance_getV, State.getV_setFlagThenV, flagReg, if_neg hr, if_neg hrF]

/-! ## The flags as numbers (R136 to R140) -/

theorem carry_iff (a b : Byte) : carry a b = true ↔ a.toNat + b.toNat > 255 := decide_eq_true_iff

theorem noBorrow_iff (a b : Byte) : noBorrow a b = true ↔ a.toNat ≥ b.toNat := decide_eq_true_iff

theorem lowBit_iff (a : Byte) : lowBit a = true ↔ a.toNat % 2 = 1 := by
  rw [lowBit, BitVec.getLsbD, Nat.testBit_zero, decide_eq_true_iff]

/-- Bit 7 is the byte's most significant bit. -/
theorem highBit_iff (a : Byte) : highBit a = true ↔ a.toNat ≥ 128 := by
  rw [show highBit a = a.msb from a.msb_eq_getLsbD_last.symm, BitVec.msb_eq_decide, decide_eq_true_iff]

/-! ## The results as numbers (R141) -/

theorem sub_toNat_mod (a b : Byte) : (a - b).toNat = (a.toNat + 256 - b.toNat) % 256 := by bv_omega

theorem shiftRight_one_toNat (a : Byte) : (a >>> 1).toNat = a.toNat / 2 := by
  rw [BitVec.toNat_ushiftRight, Nat.shiftRight_one]

theorem shiftLeft_one_toNat (a : Byte) : (a <<< 1).toNat = a.toNat * 2 % 256 := by
  rw [BitVec.toNat_shiftLeft, Nat.shiftLeft_eq, pow_one]

/-! ## Instructions that write Vx alone -/

/-- Settles O9: each writes Vx alone. -/
theorem immediateLoadAndAdd : Obligations.ImmediateLoadAndAdd := by
  refine ⟨row_encodes 7 (by decide), row_encodes 8 (by decide), fun x kk s =>
    ⟨⟨_, rfl, ?_, ?_⟩, ⟨_, rfl, ?_, ?_⟩⟩⟩
  · exact s.setV_advance_getV_self x kk
  · exact s.setV_advance_effect x kk
  · rw [s.setV_advance_getV_self, BitVec.toNat_add]
  · exact s.setV_advance_effect x _

/-- Settles O10: each writes Vx alone, and the bits of a logical operation are the operations on the bits. -/
theorem copyAndLogicWriteOnlyVx : Obligations.CopyAndLogicWriteOnlyVx := by
  refine ⟨row_encodes 9 (by decide), row_encodes 10 (by decide), row_encodes 11 (by decide), row_encodes 12 (by decide),
    fun x y s i f h => ?_⟩
  suffices ∃ b, exec i s = .next (s.setV x b).advance ∧
      ∀ k, b.getLsbD k = f ((s.getV x).getLsbD k) ((s.getV y).getLsbD k) by
    obtain ⟨b, hexec, hbits⟩ := this
    exact ⟨_, hexec, fun k _ => by rw [s.setV_advance_getV_self, hbits], s.setV_advance_effect x b⟩
  obtain ⟨rfl, rfl⟩ | ⟨rfl, rfl⟩ | ⟨rfl, rfl⟩ | ⟨rfl, rfl⟩ := by simpa only [Prod.mk.injEq] using h
  · exact ⟨s.getV y, rfl, fun _ => rfl⟩
  · exact ⟨s.getV x ||| s.getV y, rfl, fun _ => BitVec.getLsbD_or⟩
  · exact ⟨s.getV x &&& s.getV y, rfl, fun _ => BitVec.getLsbD_and⟩
  · exact ⟨s.getV x ^^^ s.getV y, rfl, fun _ => BitVec.getLsbD_xor⟩

/-! ## Instructions that write the flag, then Vx -/

/-- Settles O11: the flag is the carry, and byte addition is modulo 256. -/
theorem addRegisterSetsCarry : Obligations.AddRegisterSetsCarry :=
  ⟨row_encodes 13 (by decide), fun x _ s =>
    ⟨_, rfl, s.setFlagThenV_advance_effect x (carry_iff _ _) (BitVec.toNat_add _ _)⟩⟩

/-- Settles O12: the flag is no borrow from Vx - Vy. -/
theorem subtractSetsNoBorrow : Obligations.SubtractSetsNoBorrow :=
  ⟨row_encodes 14 (by decide), fun x _ s =>
    ⟨_, rfl, s.setFlagThenV_advance_effect x (noBorrow_iff _ _) (sub_toNat_mod _ _)⟩⟩

/-- Settles O13: the flag is bit 0, and the meaning does not read bits 7:4. -/
theorem shiftRightSetsLostBit : Obligations.ShiftRightSetsLostBit :=
  ⟨row_encodes 15 (by decide), fun x _ s =>
    ⟨_, rfl, s.setFlagThenV_advance_effect x (lowBit_iff _) (shiftRight_one_toNat _)⟩⟩

/-- Settles O14: the flag is no borrow from Vy - Vx. -/
theorem reverseSubtractSetsNoBorrow : Obligations.ReverseSubtractSetsNoBorrow :=
  ⟨row_encodes 16 (by decide), fun x _ s =>
    ⟨_, rfl, s.setFlagThenV_advance_effect x (noBorrow_iff _ _) (sub_toNat_mod _ _)⟩⟩

/-- Settles O15: the flag is bit 7, and the meaning does not read bits 7:4. -/
theorem shiftLeftSetsLostBit : Obligations.ShiftLeftSetsLostBit :=
  ⟨row_encodes 17 (by decide), fun x _ s =>
    ⟨_, rfl, s.setFlagThenV_advance_effect x (highBit_iff _) (shiftLeft_one_toNat _)⟩⟩

end Sys2Proof.Machine
end

section
/-! PROOFS. The statements on the index register and memory (spec/42_index_memory.md R160 to R166): the three writes of I,
the two stores, the block load, and that a block stored is loaded back. -/

namespace Sys2Proof.Machine

/-! ## What the index and memory instructions answer (R160 to R166) -/

theorem exec_ldI (nnn : Addr) (s : State) : exec (.ldI nnn) s = .next { s with i := addrWord nnn }.advance := rfl

theorem exec_ldB_of_le {s : State} (x : Nibble) (h : s.i.toNat + 2 ≤ 0xFFF) :
    exec (.ldB x) s = .next (s.storeAtI (decimalDigits (s.getV x))).advance := if_pos ((s.inBounds_iff _).2 h)

theorem exec_ldB_of_gt {s : State} (x : Nibble) (h : s.i.toNat + 2 > 0xFFF) :
    exec (.ldB x) s = .next (s.raise .memoryOutOfBounds (formatXK 0xF x 0x33)) :=
  if_neg (mt (s.inBounds_iff _).1 (Nat.not_le.2 h))

theorem exec_storeRegs_of_gt {x : Nibble} {s : State} (h : s.i.toNat + x.toNat > 0xFFF) :
    exec (.storeRegs x) s = .next (s.raise .memoryOutOfBounds (formatXK 0xF x 0x55)) :=
  if_neg (mt (s.inBounds_iff _).1 (Nat.not_le.2 h))

theorem exec_loadRegs_of_le {x : Nibble} {s : State} (h : s.i.toNat + x.toNat ≤ 0xFFF) :
    exec (.loadRegs x) s = .next { s.loadRegsAtI x with i := indexAfterBlock s.i x }.advance :=
  if_pos ((s.inBounds_iff _).2 h)

theorem exec_loadRegs_of_gt {x : Nibble} {s : State} (h : s.i.toNat + x.toNat > 0xFFF) :
    exec (.loadRegs x) s = .next (s.raise .memoryOutOfBounds (formatXK 0xF x 0x65)) :=
  if_neg (mt (s.inBounds_iff _).1 (Nat.not_le.2 h))

/-! ## The operands as numbers -/

theorem indexSum_toNat (i : Word) (b : Byte) : (indexSum i b).toNat = (i.toNat + b.toNat) % 4096 := by
  rw [indexSum, BitVec.toNat_ofNat]; omega

/-- Masking with 0x0F leaves the low nibble, and no glyph address wraps (R162). -/
theorem glyphAddr_toNat (b : Byte) : (glyphAddr b).toNat = fontBase + 5 * (b.toNat % 16) := by
  have hnibble : (b &&& 0x0F).toNat = b.toNat % 16 := by
    rw [BitVec.toNat_and]; exact Nat.and_two_pow_sub_one_eq_mod b.toNat 4
  rw [glyphAddr, hnibble, BitVec.toNat_ofNat, fontBase]; omega

/-- A digit of a byte does not exceed it, so it is stored without a loss (R164). -/
theorem digit_toNat {d : Nat} {b : Byte} (h : d ≤ b.toNat) : (BitVec.ofNat 8 d).toNat = d :=
  (BitVec.toNat_ofNat _ _).trans (Nat.mod_eq_of_lt (h.trans_lt b.isLt))

/-! ## The stores and the block load -/

/-- An instruction that faults in the case `p`, before any effect (R56), and has its effect in the other case. -/
theorem exec_fault_or_effect {i : Instr} {s : State} {c : Cause} {w : Word} {p : Prop} [Decidable p]
    {effect : State → Prop}
    (hfault : p → exec i s = .next (s.raise c w)) (heffect : ¬ p → ∃ t, exec i s = .next t ∧ effect t) :
    ∃ t, exec i s = .next t ∧ if p then FaultEntry s t c w else effect t := by
  by_cases hp : p
  · exact ⟨_, hfault hp, by rw [if_pos hp]; rfl⟩
  · simpa only [if_neg hp] using heffect hp

/-- Settles O19: each digit is read back where the store put it. -/
theorem storeDecimalDigits : Obligations.StoreDecimalDigits := by
  refine ⟨row_encodes 31 (by decide), fun x s => exec_fault_or_effect (exec_ldB_of_gt x) fun hout => ?_⟩
  have hdigit (k : Nat) (hk : k < 3) :=
    congrArg BitVec.toNat (s.readByte_storeAtI_inside (decimalDigits (s.getV x)) k hk)
  refine ⟨_, exec_ldB_of_le x (Nat.le_of_not_gt hout), ?_, ?_, ?_,
    s.readByte_storeAtI_outside (decimalDigits _), rfl, rfl⟩
  · exact (hdigit 0 (by decide)).trans (digit_toNat (Nat.div_le_self _ _))
  · exact (hdigit 1 (by decide)).trans (digit_toNat ((Nat.mod_le _ _).trans (Nat.div_le_self _ _)))
  · exact (hdigit 2 (by decide)).trans (digit_toNat (Nat.mod_le _ _))

/-- Settles O20: within the block a read gives the register stored there, outside it the byte before. -/
theorem storeRegisterBlock : Obligations.StoreRegisterBlock := by
  refine ⟨row_encodes 32 (by decide), fun x s => exec_fault_or_effect exec_storeRegs_of_gt fun hout => ?_⟩
  have hin : s.i.toNat + x.toNat ≤ 0xFFF := Nat.le_of_not_gt hout
  refine ⟨_, exec_storeRegs_of_le hin, fun r hr => s.readByte_storeAtI_regsUpTo hr, fun a ha => ?_,
    indexAfterBlock_toNat s.i x hin, rfl, rfl⟩
  exact s.readByte_storeAtI_outside _ a (by rw [s.regsUpTo_length]; omega)

/-- Settles O21: V0 to Vx come from the block, and the index after it does not wrap. -/
theorem loadRegisterBlock : Obligations.LoadRegisterBlock := by
  refine ⟨row_encodes 33 (by decide), fun x s => exec_fault_or_effect exec_loadRegs_of_gt fun hout => ?_⟩
  have hin : s.i.toNat + x.toNat ≤ 0xFFF := Nat.le_of_not_gt hout
  exact ⟨_, exec_loadRegs_of_le hin, s.getV_loadRegsAtI x, indexAfterBlock_toNat s.i x hin, rfl, rfl, fun _ => rfl⟩

/-- Settles O22: the load reads the addresses that the store wrote, whatever the registers hold in between. -/
theorem storeThenLoadRestoresRegisters : Obligations.StoreThenLoadRestoresRegisters := by
  intro x nnn s hroom
  have hin : (addrWord nnn).toNat + x.toNat ≤ 0xFFF := by rwa [addrWord_toNat]
  refine ⟨_, (execAll_cons (exec_ldI nnn s)).trans (execAll_cons (exec_storeRegs_of_le hin)), fun w => ?_⟩
  refine ⟨_, (execAll_cons (exec_ldI nnn _)).trans (execAll_cons (exec_loadRegs_of_le hin)), fun r => ?_, ?_,
    fun _ => rfl⟩
  · refine (State.getV_loadRegsAtI _ x r).trans ?_
    by_cases hr : r.toNat ≤ x.toNat
    · rw [if_pos hr, if_pos hr]
      exact State.readByte_storeAtI_regsUpTo { s with i := addrWord nnn }.advance hr
    · rw [if_neg hr, if_neg hr]; rfl
  · rw [← addrWord_toNat nnn]; exact indexAfterBlock_toNat _ x hin

/-! ## Instructions that write I alone -/

theorem frameIPc_advance (s : State) (w : Word) : FrameIPc s { s with i := w }.advance := ⟨rfl, fun _ => rfl⟩

/-- Settles O16: nnn is zero-extended. -/
theorem loadIndexImmediate : Obligations.LoadIndexImmediate :=
  ⟨row_encodes 19 (by decide), fun nnn s => ⟨_, exec_ldI nnn s, addrWord_toNat nnn, rfl, frameIPc_advance s _⟩⟩

/-- Settles O17: the sum is taken modulo 4096 as a number, from every I. -/
theorem addIndexWraps : Obligations.AddIndexWraps :=
  ⟨row_encodes 29 (by decide), fun x s => ⟨_, rfl, indexSum_toNat s.i (s.getV x), rfl, frameIPc_advance s _⟩⟩

/-- Settles O18: the mask 0x0F takes the low nibble. -/
theorem loadGlyphAddress : Obligations.LoadGlyphAddress :=
  ⟨row_encodes 30 (by decide), fun x s => ⟨_, rfl, glyphAddr_toNat (s.getV x), rfl, frameIPc_advance s _⟩⟩

end Sys2Proof.Machine
end

section
/-! PROOFS. The statements on the display (spec/43_display.md R180 to R188): what `CLS` and `DRW` leave in the display and the
command buffer, that a BLIT undoes itself, and that no other instruction touches either. -/

namespace Sys2Proof.Machine

/-! ## A BLIT on a pixel (R186) -/

theorem pixel_blitRows_of_cover {cx : Byte} {cy : Nat} {rows : List Byte} {R : Fin 32} {C : Fin 64}
    (fb : Vector (BitVec 64) 32) (hlen : rows.length ≤ 31) (h : rowsCover cx cy rows R C) :
    pixel (blitRows fb cx cy rows) R C = !pixel fb R C := by
  classical rw [pixel_blitRows _ _ _ _ hlen, decide_eq_true h, Bool.xor_true]

theorem pixel_blitRows_of_not_cover {cx : Byte} {cy : Nat} {rows : List Byte} {R : Fin 32} {C : Fin 64}
    (fb : Vector (BitVec 64) 32) (hlen : rows.length ≤ 31) (h : ¬ rowsCover cx cy rows R C) :
    pixel (blitRows fb cx cy rows) R C = pixel fb R C := by
  classical rw [pixel_blitRows _ _ _ _ hlen, decide_eq_false h, Bool.xor_false]

/-! ## The same BLIT twice (R188) -/

/-- Two displays that agree on every pixel are equal. -/
theorem eq_of_pixel_eq {fb fb' : Vector (BitVec 64) 32} (h : ∀ R C, pixel fb R C = pixel fb' R C) : fb = fb' :=
  Vector.ext fun r hr => BitVec.eq_of_getLsbD_eq fun c hc => h ⟨r, hr⟩ ⟨c, hc⟩

/-- A covered pixel is flipped back, and another is flipped neither time. -/
theorem blitRows_blitRows (fb : Vector (BitVec 64) 32) (cx : Byte) (cy : Nat) {rows : List Byte}
    (hlen : rows.length ≤ 31) : blitRows (blitRows fb cx cy rows) cx cy rows = fb := by
  refine eq_of_pixel_eq fun R C => ?_
  by_cases h : rowsCover cx cy rows R C
  · rw [pixel_blitRows_of_cover _ hlen h, pixel_blitRows_of_cover _ hlen h, Bool.not_not]
  · rw [pixel_blitRows_of_not_cover _ hlen h, pixel_blitRows_of_not_cover _ hlen h]

/-- A pixel of value `b` is covered exactly if a set bit of some row falls on such a pixel. -/
theorem exists_rowsCover_pixel_iff (fb : Vector (BitVec 64) 32) (cx : Byte) (cy : Nat) (rows : List Byte) (b : Bool) :
    (∃ R C, rowsCover cx cy rows R C ∧ pixel fb R C = b) ↔
      ∃ k, ∃ h : k < rows.length, ∃ c < 8, rows[k].getLsbD (7 - c) = true ∧
        fb[(cy + k) % 32].getLsbD ((cx.toNat + c) % 64) = b := by
  constructor
  · rintro ⟨⟨R, hR⟩, ⟨C, hC⟩, ⟨k, hk, rfl, hmask⟩, hpixel⟩
    obtain ⟨c, hc, hbit, rfl⟩ := (spriteMask_getLsbD _ _ _ hC).1 hmask
    exact ⟨k, hk, c, hc, hbit, hpixel⟩
  · rintro ⟨k, hk, c, hc, hbit, hpixel⟩
    have hC : (cx.toNat + c) % 64 < 64 := Nat.mod_lt _ (by decide)
    exact ⟨⟨_, Nat.mod_lt _ (by decide)⟩, ⟨_, hC⟩,
      ⟨k, hk, rfl, (spriteMask_getLsbD _ _ _ hC).2 ⟨c, hc, hbit, rfl⟩⟩, hpixel⟩

/-- Settles O27: the second BLIT covers the same pixels as the first, which has flipped each of them. -/
theorem blitTwiceRestores : Obligations.BlitTwiceRestores := by
  intro fb cx cy rows hrows
  have hlen : rows.length ≤ 31 := by omega
  refine ⟨blitRows_blitRows fb cx cy hlen, ?_⟩
  rw [collides_iff, ← exists_rowsCover_pixel_iff]
  refine exists_congr fun R => exists_congr fun C => and_congr_right fun h => ?_
  rw [pixel_blitRows_of_cover fb hlen h, Bool.not_eq_true']

/-! ## `DRW` (R181) -/

theorem exec_drw_of_outside (x y : Nibble) {n : Nibble} {s : State} (h : n.toNat > 0 ∧ s.i.toNat + n.toNat - 1 > 0xFFF) :
    exec (.drw x y n) s = .next (s.raise .memoryOutOfBounds (formatXY 0xD x y n)) :=
  if_neg fun hin => (s.drw_inBounds_iff n).1 hin h

theorem exec_drw_of_inside (x y : Nibble) {n : Nibble} {s : State}
    (h : ¬ (n.toNat > 0 ∧ s.i.toNat + n.toNat - 1 > 0xFFF)) :
    exec (.drw x y n) s =
      .next ((s.displayBlit (s.getV x) (s.getV y) n).1.setV flagReg
        (flagByte (s.displayBlit (s.getV x) (s.getV y) n).2)).advance :=
  if_pos ((s.drw_inBounds_iff n).2 h)

/-- The display after `DisplayBlit`: flipped where the sprite at I covers it (R186). -/
theorem State.displayBlit_pixel (s : State) (cx cy : Byte) (n : Nibble) (R : Fin 32) (C : Fin 64) :
    (SpriteCovers s cx cy n R C → pixel (s.displayBlit cx cy n).1.fb R C = !pixel s.fb R C) ∧
      (¬ SpriteCovers s cx cy n R C → pixel (s.displayBlit cx cy n).1.fb R C = pixel s.fb R C) := by
  have hlen : ((List.range n.toNat).map fun r => s.readByte (s.i.toNat + r)).length ≤ 31 := by
    rw [List.length_map, List.length_range]; omega
  rw [s.displayBlit_state, ← rowsCover_sprite]
  exact ⟨pixel_blitRows_of_cover s.fb hlen, pixel_blitRows_of_not_cover s.fb hlen⟩

/-- The answer of `DisplayBlit`: the sprite at I covers a pixel that is 1 (R187). -/
theorem State.displayBlit_answer_iff (s : State) (cx cy : Byte) (n : Nibble) :
    (s.displayBlit cx cy n).2 = true ↔ ∃ R C, SpriteCovers s cx cy n R C ∧ pixel s.fb R C = true := by
  simp only [s.displayBlit_answer, collides_iff, rowsCover_sprite]

/-- A flag written into VF after `DisplayBlit`, as `DRW` does: no other register differs (R181). -/
theorem State.displayBlit_setFlag_getV (s : State) (cx cy : Byte) (n : Nibble) (c : Bool) (r : Nibble) :
    ((s.displayBlit cx cy n).1.setV flagReg (flagByte c)).advance.getV r =
      if r = 0xF then flagByte c else s.getV r :=
  State.getV_setV _ _ _ _

/-- Settles O26: the rows at I leave memory or not; where they do not, the display's own lemmas give pixels and VF. -/
theorem drawSpriteXorsAndReportsCollision : Obligations.DrawSpriteXorsAndReportsCollision := by
  refine ⟨row_encodes 22 (by decide), fun x y n s => exec_fault_or_effect (exec_drw_of_outside x y) fun hin => ?_⟩
  refine ⟨_, exec_drw_of_inside x y hin, s.displayBlit_pixel _ _ n, fun hhit => ?_, fun hmiss => ?_, fun r hr => ?_,
    rfl, rfl, rfl, rfl, rfl, fun r => Vector.getElem_ofFn _, rfl, rfl, fun _ => rfl⟩
  · rw [s.displayBlit_setFlag_getV, if_pos rfl, (s.displayBlit_answer_iff _ _ n).2 hhit]; rfl
  · rw [s.displayBlit_setFlag_getV, if_pos rfl, Bool.eq_false_iff.2 (mt (s.displayBlit_answer_iff _ _ n).1 hmiss)]; rfl
  · rw [s.displayBlit_setFlag_getV, if_neg hr]

/-! ## `CLS` (R180) -/

/-- Settles O25: the pixels are those of the empty display, and everything else is read off the meaning. -/
theorem clearDisplaySetsEveryPixelZero : Obligations.ClearDisplaySetsEveryPixelZero := by
  refine ⟨row_encodes 0 (by decide), fun u s => ⟨_, rfl, fun R C => ?_, rfl, rfl, rfl, rfl, fun _ => rfl⟩⟩
  simp [pixel]

/-! ## Who writes the display (R184) -/

/-- Settles O28: `CLS` and `DRW` own the display and the command buffer. -/
theorem onlyCommandsChangeDisplay : Obligations.OnlyCommandsChangeDisplay := by
  intro i s t hexec
  cases execEffect_of_exec hexec with
  | clear u _ => exact .inr (.inl ⟨u, rfl⟩)
  | draw x y n _ => exact .inr (.inr ⟨x, y, n, rfl⟩)
  | call _ h | ret _ h | index _ h | storeBlock _ h | storeDigits _ h | keyWait _ h | delayTimer _ h | soundTimer _ h
  | other h | fault _ _ h => exact .inl ⟨by rw [h], by rw [h]⟩

end Sys2Proof.Machine
end

section
/-! PROOFS. The statements on keys, timers and the random source (spec/44_keys_timers_random.md R201 to R209): the two key
skips, the key wait and the event that ends it, the timer registers, and `RND`. -/

namespace Sys2Proof.Machine

/-! ## What a step samples (R200, R209) -/

/-- A sample of `key_state` uses up a given value or a free one, and changes nothing else (log entry 3). -/
theorem State.afterKeySample_frame (s : State) :
    s.afterKeySample = { s with keyIn := s.afterKeySample.keyIn, draws := s.afterKeySample.draws } := by
  unfold State.afterKeySample; split <;> rfl

/-- A sample of `rnd` uses up a given value or a free one, and changes nothing else (log entry 4). -/
theorem State.afterRndSample_frame (s : State) :
    s.afterRndSample = { s with rndIn := s.afterRndSample.rndIn, draws := s.afterRndSample.draws } := by
  unfold State.afterRndSample; split <;> rfl

/-- No key has a value above 15 (R201). -/
theorem keyPressed_iff (levels : BitVec 16) (b : Byte) :
    keyPressed levels b = true ↔ b.toNat ≤ 0xF ∧ levels.getLsbD b.toNat = true := by
  rw [keyPressed, Bool.and_eq_true, decide_eq_true_iff]

/-! ## The key skips (R201, R202) -/

/-- A skip after a sample of `key_state`, on a condition that says `p`. -/
theorem State.afterKeySample_skipIf_effect (s : State) {c : Bool} {p : Prop} [Decidable p] {t : State} (h : c = true ↔ p)
    (ht : t = s.afterKeySample.skipIf c) :
    t.pc = (if p then s.pc + 4 else s.pc + 2) ∧
      t = { s with pc := t.pc, keyIn := t.keyIn, draws := t.draws } ∧ SameBytes s t := by
  subst ht
  obtain ⟨hpc, hframe, hbytes⟩ := s.afterKeySample.skipIf_effect h
  refine ⟨by rw [hpc, s.afterKeySample_pc], ?_, fun a => (hbytes a).trans (s.afterKeySample_readByte a)⟩
  rw [hframe, s.afterKeySample_frame]

/-- Settles O29: both are skips after a sample, and `SKNP` skips where `SKP` does not. -/
theorem keySkipsReadSampledLevel : Obligations.KeySkipsReadSampledLevel := by
  refine ⟨row_encodes 23 (by decide), row_encodes 24 (by decide), fun x s => ⟨⟨_, rfl, ?_⟩, ⟨_, rfl, ?_⟩⟩⟩
  · exact s.afterKeySample_skipIf_effect (keyPressed_iff _ _) rfl
  · have hnot : (!keyPressed s.keySample (s.getV x)) = true ↔
        ¬ ((s.getV x).toNat ≤ 0xF ∧ s.keySample.getLsbD (s.getV x).toNat = true) := by
      rw [Bool.not_eq_true', ← Bool.not_eq_true, keyPressed_iff]
    simpa only [ite_not] using s.afterKeySample_skipIf_effect hnot rfl

/-! ## The key wait (R203, R204) -/

/-- A key event that falls is what the step does, given or drawn (R234). -/
theorem step_of_key {s : State} {k : Nibble} (h : s.nextEvent.1 = .key k) :
    step s = .next ((afterEvent s).keyEvent k) := step_eq s h

/-- The registers after a wait: the key's value in V[wx], the others as before (R204). -/
theorem State.keyEvent_waiting_getV {s : State} (k r : Nibble) (h : s.mode = .waitingForKey) :
    (s.keyEvent k).getV r = if r = s.wx then k.zeroExtend 8 else s.getV r := by
  rw [s.keyEvent_waiting k h]; exact s.getV_setV _ _ _

/-- Settles O31: the machine waits, and the event's effect is one register and the mode, or it does not. -/
theorem keyEventEndsWait : Obligations.KeyEventEndsWait := by
  intro k s hkey
  refine ⟨_, step_of_key hkey, ?_⟩
  by_cases hm : s.mode = .waitingForKey
  · have hgetV (r : Nibble) : ((afterEvent s).keyEvent k).getV r = if r = s.wx then k.zeroExtend 8 else s.getV r :=
      State.keyEvent_waiting_getV k r hm
    rw [if_pos hm]
    refine ⟨?_, fun r hr => by rw [hgetV, if_neg hr], ?_⟩
    · rw [hgetV, if_pos rfl]; exact BitVec.toNat_setWidth_of_le (by decide)
    · rw [(afterEvent s).keyEvent_waiting k hm]; exact ⟨rfl, rfl, fun _ => rfl⟩
  · rw [if_neg hm, (afterEvent s).keyEvent_dropped k hm]

/-- Settles O30: read off the meaning. -/
theorem waitForKeyBegins : Obligations.WaitForKeyBegins :=
  ⟨row_encodes 26 (by decide), fun _ _ => ⟨_, rfl, rfl, rfl, rfl, rfl, fun _ => rfl⟩⟩

/-! ## The timer registers (R205 to R207) -/

/-- The tone sounds exactly while ST is not 0 (R28). -/
theorem State.soundActive_iff (s : State) : s.soundActive = true ↔ s.st ≠ 0 :=
  decide_eq_true_iff.trans (Nat.pos_iff_ne_zero.trans (BitVec.toNat_ne_iff_ne (y := 0)))

/-- Settles O32: one register written, or one timer. -/
theorem timerRegisterCopies : Obligations.TimerRegisterCopies := by
  refine ⟨row_encodes 25 (by decide), row_encodes 27 (by decide), row_encodes 28 (by decide), fun x s =>
    ⟨⟨_, rfl, ?_, ?_⟩, ⟨_, rfl, rfl, rfl, rfl, fun _ => rfl⟩, ⟨_, rfl, rfl, ?_, rfl, rfl, fun _ => rfl⟩⟩⟩
  · exact s.setV_advance_getV_self x s.dt
  · exact s.setV_advance_effect x s.dt
  · exact State.soundActive_iff _

/-! ## The random byte (R208) -/

/-- Settles O33: after the sample, one register is written, and the bits of the mask are the mask on the bits. -/
theorem randomByteIsMasked : Obligations.RandomByteIsMasked := by
  refine ⟨row_encodes 21 (by decide), fun x kk s => ⟨_, rfl, fun k _ => ?_, ?_⟩⟩
  · rw [State.setV_advance_getV_self, BitVec.getLsbD_and]
  obtain ⟨hothers, hpc, hframe, hbytes⟩ := s.afterRndSample.setV_advance_effect x (s.rndSample &&& kk)
  refine ⟨fun r hr => (hothers r hr).trans (s.afterRndSample_getV r), hpc.trans (by rw [s.afterRndSample_pc]), ?_,
    fun a => (hbytes a).trans (s.afterRndSample_readByte a)⟩
  rw [hframe, s.afterRndSample_frame]

end Sys2Proof.Machine
end

section
/-! PROOFS. The statements on faults and atomic steps (spec/60_exceptions.md R220 to R246): an instruction's own faults, the
unimplemented word, the tick, and what can fall in `Halted` and in `WaitingForKey`. -/

namespace Sys2Proof.Machine

/-! ## An instruction's own fault (R222, R223, R224 b) -/

/-- `i` answers a next state in `s`, and halts exactly where it raises its own fault, by fault entry. -/
def HaltsByOwnFault (i : Instr) (s : State) : Prop :=
  ∃ t, exec i s = .next t ∧ (t.mode = .halted ↔ ownFault i s ≠ .none) ∧
    (ownFault i s ≠ .none → FaultEntry s t (ownFault i s) (encode i))

/-- An instruction with no fault of its own in `s` only has to answer a state that has not halted. -/
theorem haltsByOwnFault_of_none {i : Instr} {s : State} (hown : ownFault i s = .none)
    (heffect : ∃ t, exec i s = .next t ∧ t.mode ≠ .halted) : HaltsByOwnFault i s := by
  obtain ⟨t, ht, hm⟩ := heffect
  exact ⟨t, ht, iff_of_false hm (not_not_intro hown), fun hne => absurd hown hne⟩

/-- An instruction with one check raises its fault in the case `p`, and does not halt in the other. -/
theorem haltsByOwnFault_of_check {i : Instr} {s : State} (c : Cause) {p : Prop} [Decidable p] (hc : c ≠ .none)
    (hown : ownFault i s = if p then c else .none) (hfault : p → exec i s = .next (s.raise c (encode i)))
    (heffect : ¬ p → ∃ t, exec i s = .next t ∧ t.mode ≠ .halted) : HaltsByOwnFault i s := by
  by_cases hp : p
  · rw [if_pos hp] at hown
    refine ⟨_, hfault hp, iff_of_true rfl (hown ▸ hc), fun _ => ?_⟩
    rw [hown]; rfl
  · rw [if_neg hp] at hown
    exact haltsByOwnFault_of_none hown (heffect hp)

/-- Settles O38: six instructions have a check; no other one halts. -/
theorem ownFaultsAreExactlyThese : Obligations.OwnFaultsAreExactlyThese := by
  intro i s hm
  have hlive : s.mode ≠ .halted := by rw [hm]; nofun
  cases i
  case call nnn =>
    exact haltsByOwnFault_of_check .stackOverflow nofun rfl (exec_call_of_full nnn) fun hp =>
      ⟨_, exec_call_of_lt nnn (by omega), hlive⟩
  case ret u =>
    exact haltsByOwnFault_of_check .stackUnderflow nofun rfl (exec_ret_of_empty u) fun hp =>
      ⟨_, exec_ret_of_pos u (Nat.pos_of_ne_zero hp), hlive⟩
  case drw x y n =>
    exact haltsByOwnFault_of_check .memoryOutOfBounds nofun rfl (exec_drw_of_outside x y) fun hp =>
      ⟨_, exec_drw_of_inside x y hp, hlive⟩
  case ldB x =>
    exact haltsByOwnFault_of_check .memoryOutOfBounds nofun rfl (exec_ldB_of_gt x) fun hp =>
      ⟨_, exec_ldB_of_le x (Nat.le_of_not_gt hp), hlive⟩
  case storeRegs x =>
    exact haltsByOwnFault_of_check .memoryOutOfBounds nofun rfl exec_storeRegs_of_gt fun hp =>
      ⟨_, exec_storeRegs_of_le (Nat.le_of_not_gt hp), hlive⟩
  case loadRegs x =>
    exact haltsByOwnFault_of_check .memoryOutOfBounds nofun rfl exec_loadRegs_of_gt fun hp =>
      ⟨_, exec_loadRegs_of_le (Nat.le_of_not_gt hp), hlive⟩
  case ldVxK x => exact haltsByOwnFault_of_none rfl ⟨_, rfl, nofun⟩
  case skp | sknp | rnd => exact haltsByOwnFault_of_none rfl ⟨_, rfl, by simp [hm]⟩
  all_goals exact haltsByOwnFault_of_none rfl ⟨_, rfl, hlive⟩

/-! ## A word that no row selects (R221) -/

/-- Settles O40: the event leaves PC and the bytes there, and a word no row selects does not decode. -/
theorem unimplementedWordFaults : Obligations.UnimplementedWordFaults := by
  intro s w hinstr hm hr hpc hw hrows
  have hfetch : (afterEvent s).fetch = some w := ((afterEvent s).fetch_eq_some w).2 ⟨hpc, hw.symm⟩
  exact ⟨_, (step_eq s hinstr).trans
    (instrStep_undecoded (afterEvent s) hm hr hfetch (decodeOpt_eq_none_of_unselected hrows)), rfl⟩

/-! ## The tick (R236) -/

/-- Settles O43: the tick's step on the state without the event. -/
theorem tickCountsBothTimersDown : Obligations.TickCountsBothTimersDown := fun s htick =>
  ⟨_, step_eq s htick, countDown_toNat s.dt, countDown_toNat s.st, decide_eq_true_iff, rfl, fun _ => rfl⟩

/-! ## What can fall outside `Running` (R227, R246) -/

/-- A step that answers is a reset, a tick, load write or change of `run`, a key event, or an instruction step, each on
the state without the event (R234). -/
theorem step_cases_afterEvent {s t : State} (hstep : step s = .next t) :
    (∃ rest, s.outside = .reset :: rest) ∨ TickLoadOrRun s t ∨
    (∃ k, s.nextEvent.1 = .key k ∧ t = (afterEvent s).keyEvent k) ∨
    (s.nextEvent.1 = .instr ∧ instrStep (afterEvent s) = .next t) := by
  have hcases := step_cases hstep
  rw [s.nextEvent_snd] at hcases
  obtain hinstr | htick | hkey | ⟨hreset, -⟩ | hload | hrun := hcases
  · exact .inr (.inr (.inr hinstr))
  · exact .inr (.inl (.inl htick))
  · exact .inr (.inr (.inl hkey))
  · exact .inl (State.outside_of_nextEvent hreset nofun nofun nofun)
  · exact .inr (.inl (.inr (.inl hload)))
  · exact .inr (.inl (.inr (.inr hrun)))

/-- Settles O41: a key event is dropped, and an instruction step asked for answers no state. -/
theorem haltedIsTerminal : Obligations.HaltedIsTerminal := by
  intro s t hm hstep
  obtain hreset | hagent | ⟨k, hkey, rfl⟩ | ⟨hinstr, -⟩ := step_cases_afterEvent hstep
  · exact .inl hreset
  · exact .inr (.inl hagent)
  · exact .inr (.inr ⟨k, hkey, (afterEvent s).keyEvent_dropped k (hm ▸ nofun)⟩)
  · have hstop := ((stepStopsOnlyHere s).1 _).2 ⟨hm, hinstr, rfl⟩
    rw [hstep] at hstop
    cases hstop

/-- An instruction step asked for in a wait does nothing (log entry 7). -/
theorem instrStep_waiting {s : State} (hm : s.mode = .waitingForKey) : instrStep s = .next s := by
  simp [instrStep, State.instrEnabled, disabledStep, hm]

/-- Settles O49: O31 says what the key event does. -/
theorem waitIsLeftByKeyOrReset : Obligations.WaitIsLeftByKeyOrReset := by
  intro s t hm hstep
  obtain hreset | hagent | ⟨k, hkey, -⟩ | ⟨hinstr, hnext⟩ := step_cases_afterEvent hstep
  · exact .inl hreset
  · exact .inr (.inr (.inl hagent))
  · obtain ⟨t', ht', heffect⟩ := keyEventEndsWait k s hkey
    rw [hstep] at ht'
    cases ht'
    rw [if_pos hm] at heffect
    obtain ⟨hwx, hothers, hmode, hframe, -⟩ := heffect
    rw [hmode] at hframe
    exact .inr (.inl ⟨k, hkey, hwx, hothers, hframe⟩)
  · rw [instrStep_waiting (s := afterEvent s) hm] at hnext
    cases hnext
    exact .inr (.inr (.inr ⟨hinstr, rfl⟩))

end Sys2Proof.Machine
end

section
/-! PROOFS. The statements on the host and on the end of a run (spec/70_reset_and_hazards.md R260 to R267): reset, the load
port and the launch state, `run`, and the program that has ended. -/

namespace Sys2Proof.Machine

/-! ## Reset (R260) -/

/-- Settles O46: the reset falls, and its effect is `hostReset`. -/
theorem hostResetFromAnyState : Obligations.HostResetFromAnyState := fun s _ ho => step_cons s ho

/-! ## The load port and the launch (R263, R264) -/

/-- A load write while `run` is 0 writes its byte and does nothing else (R263). -/
theorem step_of_load {s : State} {a : Addr} {d : Byte} {rest : List Event} (ho : s.outside = .load a d :: rest)
    (hr : s.run = false) : step s = .next { s with mem := Memory.write s.mem a.toNat d, outside := rest } := by
  rw [step_cons s ho]; simp [eventStep, loadStep, hr, State.hostLoad]

/-- A change of `run` sets `run` and does nothing else (R265). -/
theorem step_of_run {s : State} {b : Bool} {rest : List Event} (ho : s.outside = .run b :: rest) :
    step s = .next { s with run := b, outside := rest } := step_cons s ho

/-- The host's script after reset reaches the launch state: `run` low, the load writes, `run` high (R264). -/
theorem stepsFor_launchScript {image : List Byte} (h : image.length ≤ 3584) :
    stepsFor (image.length + 2) { State.reset with outside := launchScript image } = .next (launch image) := by
  have hlow : step { State.reset with outside := launchScript image } =
      .next { State.reset with run := false, outside := loadEvents Config.entry.toNat image ++ [.run true] } :=
    step_of_run rfl
  have hhigh : step { State.reset with
      run := false, mem := Memory.writeBytes State.reset.mem Config.entry.toNat image, outside := [.run true] } =
      .next (launch image) := step_of_run rfl
  have hfits : Config.entry.toNat + image.length ≤ Config.memSize := Nat.add_le_add_left h _
  calc
    _ = stepsFor (image.length + 1) _ := stepsFor_succ hlow
    _ = stepsFor 1 _ := stepsFor_loadEvents _ _ image [.run true] rfl hfits 1 rfl
    _ = stepsFor 0 _ := stepsFor_succ hhigh

/-- Settles O47: a read after the write, and the image by the host's script. -/
theorem loadPortWritesAndLaunches : Obligations.LoadPortWritesAndLaunches := by
  refine ⟨fun s a d rest ho hr => ⟨_, step_of_load ho hr, ?_, fun a' ha => ?_, rfl⟩, fun image h =>
    ⟨stepsFor_launchScript h, rfl, launch_readByte_inside image, launch_readByte_outside image⟩⟩
  · exact Memory.read_write_self s.mem a.toNat d
  · exact Memory.read_write_ne s.mem d ha

/-! ## What `run` gates (R265) -/

/-- An instruction step asked for in `Running` while `run` is 0 does nothing (log entry 7). -/
theorem instrStep_of_run_low {s : State} (hm : s.mode = .running) (hr : s.run = false) : instrStep s = .next s := by
  simp [instrStep, State.instrEnabled, disabledStep, hm, hr]

/-- Settles O48: the effect of each event, of which the first alone reads `run`. -/
theorem runGatesInstructionSteps : Obligations.RunGatesInstructionSteps := by
  refine fun s rest => ⟨fun ho hm hr => ?_, fun b ho => step_of_run ho, fun k ho hm => ⟨_, step_cons s ho, ?_⟩⟩
  · exact (step_cons s ho).trans (instrStep_of_run_low (s := { s with outside := rest }) hm hr)
  · exact congrArg State.mode (State.keyEvent_waiting { s with outside := rest } k hm)

/-! ## The end of a run (R267 c) -/

/-- In an ended state an instruction step runs the `JP` to itself, or nothing while `run` is 0. -/
theorem instrStep_ended {s : State} (h : s.ended = true) : instrStep s = .next s := by
  obtain ⟨hm, hf⟩ := s.ended_iff.1 h
  cases hr : s.run
  case false => exact instrStep_of_run_low hm hr
  case true =>
    have hpc : s.pc.toNat ≤ 0xFFE := ((s.fetch_eq_some _).1 hf).1
    calc
      instrStep s = .next (s.jumpTo (addrWord (Field.nnn s.pc))) := instrStep_exec s _ hm hr hf (decode_encode _)
      _ = .next s := by rw [addrWord_nnn s.pc (hpc.trans (by decide))]; rfl

/-- Settles O60: the `JP` to itself and a dropped key event do nothing; a tick and a change of `run` touch the timers and
`run` alone, and `ended` reads neither. -/
theorem endedProgramRests : Obligations.EndedProgramRests := by
  intro s hend
  have hinstrStep : instrStep (afterEvent s) = .next (afterEvent s) := instrStep_ended (s := afterEvent s) hend
  refine ⟨fun hinstr => (step_eq s hinstr).trans hinstrStep, fun t hstep => ?_⟩
  have hm : (afterEvent s).mode = .running := (s.ended_iff.1 hend).1
  obtain hreset | (⟨htick, rfl⟩ | ⟨a, d, hload, -⟩ | ⟨b, -, rfl⟩) | ⟨k, -, rfl⟩ | ⟨-, hnext⟩ :=
    step_cases_afterEvent hstep
  · exact .inl hreset
  · exact .inr (.inr ⟨hend, rfl, fun _ => rfl, fun hne => absurd htick hne⟩)
  · obtain ⟨rest, ho⟩ := State.outside_of_nextEvent hload nofun nofun nofun
    exact .inr (.inl ⟨a, d, rest, ho⟩)
  · exact .inr (.inr ⟨hend, rfl, fun _ => rfl, fun _ => ⟨rfl, rfl⟩⟩)
  · rw [(afterEvent s).keyEvent_dropped k (hm ▸ nofun)]
    exact .inr (.inr ⟨hend, rfl, fun _ => rfl, fun _ => ⟨rfl, rfl⟩⟩)
  · cases hinstrStep.symm.trans hnext
    exact .inr (.inr ⟨hend, rfl, fun _ => rfl, fun _ => ⟨rfl, rfl⟩⟩)

end Sys2Proof.Machine
end
